-- ==== Sys2Proof/Word.lean ====
section
/-!
DEFINITION. The plain values of the block: bytes, byte sequences and the 2-bit operation word
(00_scope R9, R10; 30_encoding R46).
-/

namespace Sys2Proof

/-- A byte: an unsigned integer in 0..255 (R9). -/
abbrev Byte := BitVec 8

/-- A sequence: a finite ordered list of bytes, index 0 first (R9). -/
abbrev Bytes := List Byte

/-- The operation word `op[1:0]` (R46). -/
abbrev OpWord := BitVec 2

end Sys2Proof
end

