-- ==== Sys2Proof/Syntax.lean ====
section
/-!
DEFINITION. The block's four operations with their operands (30_encoding R47, R48), one constructor
for each row of the opcode table.
-/

namespace Sys2Proof

/-- An operation of the block together with the operands its ports carry (R47, R48). -/
inductive Instr where
  /-- CLEAR: discard the buffer (R78). -/
  | clear
  /-- PUSH of the byte on `byte_in` (R67). -/
  | push (byteIn : Byte)
  /-- ENCODE of `addr_in`, `cmd_in` and `payload_in`, a payload of any length (R58). -/
  | encode (addrIn cmdIn : Byte) (payloadIn : Bytes)
  /-- VERIFY of `cand_in`, a candidate of any length (R59). -/
  | verify (candIn : Bytes)
  deriving DecidableEq, Repr

/-- The five operand ports (R47). -/
structure Ports where
  /-- `byte_in`, used by PUSH. -/
  byteIn : Byte
  /-- `addr_in`, used by ENCODE. -/
  addrIn : Byte
  /-- `cmd_in`, used by ENCODE. -/
  cmdIn : Byte
  /-- `payload_in`, used by ENCODE. -/
  payloadIn : Bytes
  /-- `cand_in`, used by VERIFY. -/
  candIn : Bytes
  deriving DecidableEq, Repr

/-- What the host presents to issue one operation: the operation word and the ports (R46). -/
structure Issue where
  /-- The operation word. -/
  op : OpWord
  /-- The operand ports. -/
  ports : Ports
  deriving DecidableEq, Repr

end Sys2Proof
end

