-- ==== Sys2Proof/WellFormed.lean ====
section
/-!
DEFINITION. Well-formedness. Every operation with every operand value is legal (30_encoding R47,
R49, R50), so `Instr.wellFormed` refuses nothing. What can be ill-formed is an issue: the canonical
issue of an operation holds nothing on the ports that operation ignores (R47).
-/

namespace Sys2Proof

/-- No operation is illegal: all four operation words are defined and every operand value of every
length is accepted (R47, R49, R50). -/
def Instr.wellFormed : Instr → Bool
  | .clear => true
  | .push _ => true
  | .encode _ _ _ => true
  | .verify _ => true

/-- No byte on `byte_in`. -/
def Ports.byteInIdle (p : Ports) : Bool := p.byteIn == 0

/-- Nothing on `addr_in`, `cmd_in` and `payload_in`. -/
def Ports.frameInIdle (p : Ports) : Bool := p.addrIn == 0 && p.cmdIn == 0 && p.payloadIn == []

/-- Nothing on `cand_in`. -/
def Ports.candInIdle (p : Ports) : Bool := p.candIn == []

/-- The issue holds nothing on the ports its operation ignores (R47, R48). The decoder reads an
issue that fails this too: an ignored port changes nothing. -/
def Issue.wellFormed (w : Issue) : Bool :=
  (w.op == 0b01 || w.ports.byteInIdle) && (w.op == 0b10 || w.ports.frameInIdle) &&
    (w.op == 0b11 || w.ports.candInIdle)

end Sys2Proof
end

