-- ==== Sys2Proof/Decode.lean ====
section
/-!
DEFINITION. The operation map of 30_encoding R48: from what the host presents (operation word and
ports) to the operation, and back. Decoding is total: all four words are defined (R49), so there is
no encoding to reject.
-/

namespace Sys2Proof

/-- The operation an issue selects. Each operation takes its own ports and ignores the others
(R47, R48). -/
def decode (w : Issue) : Instr :=
  if w.op = 0b00 then .clear
  else if w.op = 0b01 then .push w.ports.byteIn
  else if w.op = 0b10 then .encode w.ports.addrIn w.ports.cmdIn w.ports.payloadIn
  else .verify w.ports.candIn

/-- Ports that carry nothing: bytes zero, sequences empty. -/
def idlePorts : Ports := { byteIn := 0, addrIn := 0, cmdIn := 0, payloadIn := [], candIn := [] }

/-- The operation word of an operation (R48). -/
def opWordOf : Instr → OpWord
  | .clear => 0b00
  | .push _ => 0b01
  | .encode _ _ _ => 0b10
  | .verify _ => 0b11

/-- The ports that carry an operation's operands, the ignored ones idle (R47). -/
def portsOf : Instr → Ports
  | .clear => idlePorts
  | .push b => { idlePorts with byteIn := b }
  | .encode a c p => { idlePorts with addrIn := a, cmdIn := c, payloadIn := p }
  | .verify x => { idlePorts with candIn := x }

/-- The encoding of an operation: its word with its operand values (R52). -/
def encode (i : Instr) : Issue := { op := opWordOf i, ports := portsOf i }

/-- The pseudo-operation PUSHS: one PUSH for each byte, in order (R53). -/
def expandPushs (bs : Bytes) : List Instr := bs.map Instr.push

/-- The issue whose word is the low two of the `nbits` bits of `w` and whose ports carry nothing:
the numbering of the opcode table, whose mask covers bits 1 and 0 only. Log entry 5. -/
def issueOfTableWord (nbits w : Nat) : Issue :=
  { op := BitVec.ofNat 2 (w % 2 ^ nbits), ports := idlePorts }

/-- The operation the decoder reads from a word of the opcode table. -/
def decodeTableWord (nbits w : Nat) : Option Instr := some (decode (issueOfTableWord nbits w))

end Sys2Proof
end

