-- ==== Sys2Proof/Config.lean ====
section
/-!
DEFINITION. What is fixed for an instance of the block: the constants of 00_scope R5 and R6, the
open parameter DRAIN_ON_EMIT of R7, and the informative command values of 30_encoding R54.
-/

namespace Sys2Proof.Config

/-- STX, the start marker (R5). -/
def stx : Byte := 0x02

/-- ETX, the end marker (R5). -/
def etx : Byte := 0x03

/-- CR, the terminator (R5). -/
def cr : Byte := 0x0D

/-- MAX_PAYLOAD (R6): the longest payload a one-byte length field can declare. -/
def maxPayload : Nat := 255

/-- FRAME_OVERHEAD (R6): header and footer bytes of a frame. -/
def frameOverhead : Nat := 7

/-- HDR_LEN (R6, R70): the scan's header threshold. -/
def hdrLen : Nat := 4

/-- FTR_LEN (R6): ETX, checksum, CR. -/
def ftrLen : Nat := 3

/-- MIN_FRAME (R6). -/
def minFrame : Nat := frameOverhead + 0

/-- MAX_FRAME (R6). -/
def maxFrame : Nat := frameOverhead + maxPayload

/-- BUF_CAP (R6, R17): the store that holds every reachable buffer. -/
def bufCap : Nat := 262

/-- The instance parameters (R8: there is exactly one). -/
structure Params where
  /-- DRAIN_ON_EMIT (R7): whether one PUSH keeps scanning after it has emitted a frame. -/
  drainOnEmit : Bool
  deriving DecidableEq, Repr

/-- FREE VALUE: DRAIN_ON_EMIT of the instance that `State.reset` describes. The spec leaves it open
(R7, 92 D3), so it has no body and nothing can be proved of its value. Log entry 1; safe. -/
opaque drainOnEmit : Bool

/-! Command values of the surrounding software (R54). The block never tests one (R44, R55). -/

/-- ROM-version request or mode-read request (R54). -/
def cmdRomVersionOrModeRead : Byte := 0x4F
/-- Mode write (R54). -/
def cmdModeWrite : Byte := 0x4E
/-- Inventory start (R54). -/
def cmdInventoryStart : Byte := 0x78
/-- Tag-report response (R54). -/
def cmdTagReport : Byte := 0x49
/-- Acknowledgement, ACK (R54). -/
def cmdAck : Byte := 0x30
/-- Negative acknowledgement, NACK (R54). -/
def cmdNack : Byte := 0x31
/-- Buzzer control (R54). -/
def cmdBuzzer : Byte := 0x42

end Sys2Proof.Config
end

