-- ==== Sys2Proof/Machine/State.lean ====
section
/-!
DEFINITION. The machine's state as plain data: the accumulation buffer, which is all the state the
spec gives the block (10_state R15, R16), and beside it the model's own fields: the instance
parameter, the host's coming events, and what the result port has returned.
-/

namespace Sys2Proof.Machine

/-- The status codes (60_exceptions R85). -/
inductive Status where
  /-- Code 0: the operation completed. -/
  | ok
  /-- Code 1: ENCODE was given more than 255 payload bytes. -/
  | payloadTooLong
  deriving DecidableEq, Repr

/-- An emitted-frame record (41_stream_reassembler R77). -/
structure EmittedFrame where
  /-- The accepted candidate in wire order. -/
  raw : Bytes
  /-- `cand[1]`. -/
  address : Byte
  /-- `cand[2]`. -/
  command : Byte
  /-- `cand[4..4+cand[3])`. -/
  payload : Bytes
  deriving DecidableEq, Repr

/-- One return of the result port (30_encoding R56). A field an operation does not return is `none`. -/
structure Result where
  /-- Returned by all operations. -/
  status : Status
  /-- Returned by ENCODE with status OK. -/
  frameOut : Option Bytes
  /-- Returned by VERIFY. -/
  valid : Option Bool
  /-- Returned by PUSH. -/
  frames : Option (List EmittedFrame)
  deriving DecidableEq, Repr

/-- What the host does to the block next: it issues an operation (R46, R89), or asserts reset (R98). -/
inductive HostEvent where
  /-- Issue one operation. -/
  | operation (w : Issue)
  /-- Assert reset between operations. -/
  | reset
  deriving DecidableEq, Repr

/-- The block with its host. Only `buf` is architectural (R15). -/
structure State where
  /-- The accumulation buffer, oldest byte first (R15). -/
  buf : Bytes
  /-- The instance parameter (R7, R21): fixed, no step writes it. Log entry 2. -/
  config : Config.Params
  /-- What the host has still to do, oldest first (R52, R89, R102). Log entry 3. -/
  host : List HostEvent
  /-- What the result port has returned, oldest first (R20, R102); no meaning reads it. Log entry 4. -/
  results : List Result
  deriving DecidableEq, Repr

/-- Reasons the machine stops with a fault: none. The spec's one fault, PAYLOAD_TOO_LONG, is the
status of an operation after which the block goes on (R86, R92), so it is a next state. Log entry 6. -/
inductive Fault where
  deriving DecidableEq, Repr

/-- Reasons a step is refused. -/
inductive Refusal where
  /-- The instruction has no meaning yet. Raised by a rejected arm of `exec`; no arm is rejected, so
  nothing raises it. Safe. -/
  | notModelled (mnemonic : String)
  deriving DecidableEq, Repr

/-- Right after reset, for an instance with the given parameters: the buffer is empty, and that is
the whole reset state (R24, R98). No operation is issued yet and none has returned a result. -/
def State.resetFor (p : Config.Params) : State :=
  { buf := [], config := p, host := [], results := [] }

/-- Right after reset, for an instance whose DRAIN_ON_EMIT is left open (R7). -/
def State.reset : State := State.resetFor { drainOnEmit := Config.drainOnEmit }

end Sys2Proof.Machine
end

