-- ==== Sys2Proof/Machine/Flags.lean ====
section
/-!
DEFINITION. The checksum (40_frame_codec R57) and the result-port fields each operation writes,
which the spec's operation rules call the flags written (30_encoding R56).
-/

namespace Sys2Proof.Machine

/-- `sum8`: the sum of the unsigned bytes, kept to its low 8 bits (R57). -/
def sum8 (s : Bytes) : Byte := BitVec.ofNat 8 ((s.map BitVec.toNat).sum)

/-- Status OK and nothing else: CLEAR (R78). -/
def resultOk : Result := { status := .ok, frameOut := none, valid := none, frames := none }

/-- Status OK with `frame_out`: ENCODE (R58). -/
def resultFrame (f : Bytes) : Result := { resultOk with frameOut := some f }

/-- Status OK with `valid`: VERIFY (R59). -/
def resultValid (v : Bool) : Result := { resultOk with valid := some v }

/-- Status OK with `frames`: PUSH (R67). -/
def resultFrames (fs : List EmittedFrame) : Result := { resultOk with frames := some fs }

/-- Status PAYLOAD_TOO_LONG and no frame (R85, R86). -/
def resultTooLong : Result := { resultOk with status := .payloadTooLong }

/-- The emitted-frame records a result carries; none where the operation returns no `frames` (R56). -/
def returnedFrames (r : Result) : List EmittedFrame := r.frames.getD []

/-- The status field's bit: 0 is OK, 1 is PAYLOAD_TOO_LONG (R56, R85). -/
def statusCode : Status → BitVec 1
  | .ok => 0
  | .payloadTooLong => 1

end Sys2Proof.Machine
end

