-- ==== Sys2Proof/Machine/Operands.lean ====
section
/-!
DEFINITION. Reading a byte sequence: the byte at an offset, the fields of a frame (30_encoding R39,
R45), the required length (41_stream_reassembler R71) and the emitted-frame record (R77).
-/

namespace Sys2Proof.Machine

/-- `s[i]`. Every rule reads inside the sequence; what stands here for an offset outside it
changes no result. Log entry 7. -/
def byteAt (s : Bytes) (i : Nat) : Byte := s.getD i 0

/-- `s[a..b)` (R9). -/
def slice (s : Bytes) (a b : Nat) : Bytes := (s.take b).drop a

/-- The declared length `L`: the byte at offset 3, unsigned (R41). -/
def declaredLength (s : Bytes) : Nat := (byteAt s 3).toNat

/-- The required length `need = s[3] + 7`, without wrapping (R40, R71). -/
def requiredLength (s : Bytes) : Nat := declaredLength s + Config.frameOverhead

/-- The address field (R45). -/
def addressOf (f : Bytes) : Byte := byteAt f 1

/-- The command field (R45). -/
def commandOf (f : Bytes) : Byte := byteAt f 2

/-- The payload field (R45). -/
def payloadOf (f : Bytes) : Bytes := slice f 4 (4 + declaredLength f)

/-- The record PUSH returns for an accepted candidate (R77). -/
def emittedFrame (cand : Bytes) : EmittedFrame :=
  { raw := cand, address := addressOf cand, command := commandOf cand, payload := payloadOf cand }

end Sys2Proof.Machine
end

