-- ==== Sys2Proof/Machine/Ops.lean ====
section
/-!
DEFINITION. The named operations over the state: the buffer primitives of 20_memory R27, returning
a result, raising the one fault (60_exceptions R86) and asserting reset (70_reset_and_hazards R98).
-/

namespace Sys2Proof.Machine

/-- `buf <- buf ++ [b]` on a buffer: append one byte at the tail (R27, R68). -/
def appendTail (buf : Bytes) (b : Byte) : Bytes := buf ++ [b]

/-- `buf[k..|buf|)`: what is left when the first `k` bytes are removed from the head (R27). -/
def dropHead (k : Nat) (buf : Bytes) : Bytes := buf.drop k

/-- `buf[0..k)`: the first `k` bytes, read and not removed (R27, R73). -/
def readHead (k : Nat) (buf : Bytes) : Bytes := buf.take k

/-- Write the buffer. -/
def State.setBuf (s : State) (buf : Bytes) : State := { s with buf := buf }

/-- `buf <- []` (R27). -/
def State.emptyBuf (s : State) : State := s.setBuf []

/-- Hand a result to the host (R20, R56). -/
def State.returnResult (s : State) (r : Result) : State := { s with results := s.results ++ [r] }

/-- `raise PayloadTooLong()` (R11, R86): the fault is this operation's status and nothing else. No
state is saved, no mode changes, control goes nowhere (R92), and there is no return from it (R93). -/
def State.raisePayloadTooLong (s : State) : State := s.returnResult resultTooLong

/-- The host's events after the one the step takes. -/
def State.setHost (s : State) (host : List HostEvent) : State := { s with host := host }

/-- The host does nothing, and nothing happens: a run ends so, and no later event turns the bytes
still held into a frame (R102). Log entry 3. -/
def State.idle (s : State) : State := s

/-- Asserting reset empties the buffer; that is the whole effect (R98). -/
def State.assertReset (s : State) : State := s.emptyBuf

end Sys2Proof.Machine
end

