-- ==== Sys2Proof/Machine/FrameCodec.lean ====
section
/-!
DEFINITION. The frame codec's operations ENCODE and VERIFY (40_frame_codec.md).
-/

namespace Sys2Proof.Machine

/-- The bytes the checksum covers: STX through ETX (R42, R58). -/
def checkedPart (a c : Byte) (p : Bytes) : Bytes :=
  [Config.stx, a, c, BitVec.ofNat 8 p.length] ++ p ++ [Config.etx]

/-- The frame of (address, command, payload), or nothing when the payload has no encoding (R58). -/
def encodeFrame (a c : Byte) (p : Bytes) : Option Bytes :=
  if p.length > Config.maxPayload then none
  else some (checkedPart a c p ++ [sum8 (checkedPart a c p), Config.cr])

/-- VERIFY as a predicate: the five tests of R59, in its order. Offset 0 is not tested (R60). -/
def verifyFrame (x : Bytes) : Bool :=
  decide (x.length ≥ Config.minFrame)
    && decide (x.length = requiredLength x)
    && byteAt x (x.length - 3) == Config.etx
    && byteAt x (x.length - 1) == Config.cr
    && byteAt x (x.length - 2) == sum8 (slice x 0 (x.length - 2))

/-- ENCODE (R58): return the frame, or raise PayloadTooLong. `buf` is not touched (R65). -/
def execEncode (a c : Byte) (p : Bytes) (s : State) : Host.Outcome State Fault Refusal :=
  match encodeFrame a c p with
  | some f => .next (s.returnResult (resultFrame f))
  | none => .next s.raisePayloadTooLong

/-- VERIFY (R59): return `valid`; a rejected candidate is no fault (R87). `buf` is not touched (R65). -/
def execVerify (x : Bytes) (s : State) : Host.Outcome State Fault Refusal :=
  .next (s.returnResult (resultValid (verifyFrame x)))

end Sys2Proof.Machine
end

