-- ==== Sys2Proof/Machine/StreamReassembler.lean ====
section
/-!
DEFINITION. The stream resynchronizer's operations PUSH and CLEAR (41_stream_reassembler.md).
-/

namespace Sys2Proof.Machine

/-- Step B: while the buffer is not empty and its first byte is not STX, remove the first byte (R69). -/
def resync : Bytes → Bytes
  | [] => []
  | b :: bs => if b = Config.stx then b :: bs else resync bs

/-- At most `fuel` passes of the scan loop of R67 over `buf`: the candidates emitted, in order, and
the buffer left. `hdr` is the header threshold (R70) and `drain` is DRAIN_ON_EMIT (R75). `|buf| + 1`
passes always suffice (R76), so a larger `fuel` changes nothing; log entry 8. -/
def scanPasses (hdr : Nat) (drain : Bool) : Nat → Bytes → List Bytes × Bytes
  | 0, buf => ([], buf)
  | fuel + 1, buf =>
    let held := resync buf
    if held.length < hdr then ([], held)
    else if held.length < requiredLength held then ([], held)
    else
      let cand := readHead (requiredLength held) held
      let rest := dropHead (requiredLength held) held
      if verifyFrame cand then
        if drain then
          let more := scanPasses hdr drain fuel rest
          (cand :: more.1, more.2)
        else ([cand], rest)
      else scanPasses hdr drain fuel (dropHead 1 held)

/-- The whole scan of one PUSH (R67, steps B to H). -/
def scan (drain : Bool) (buf : Bytes) : List Bytes × Bytes :=
  scanPasses Config.hdrLen drain (buf.length + 1) buf

/-- The scan a PUSH of `b` runs in state `s`: the byte is appended first, whatever its value (R68). -/
def pushScan (b : Byte) (s : State) : List Bytes × Bytes :=
  scan s.config.drainOnEmit (appendTail s.buf b)

/-- The state after PUSH of `b` (R67). -/
def afterPush (b : Byte) (s : State) : State :=
  (s.setBuf (pushScan b s).2).returnResult (resultFrames ((pushScan b s).1.map emittedFrame))

/-- The state after PUSHS of a byte sequence (R53). -/
def afterPushs : Bytes → State → State
  | [], s => s
  | b :: bs, s => afterPushs bs (afterPush b s)

/-- The records the PUSHes of a byte sequence emit: their lists concatenated in order (R53). -/
def pushsFrames : Bytes → State → List EmittedFrame
  | [], _ => []
  | b :: bs, s => (pushScan b s).1.map emittedFrame ++ pushsFrames bs (afterPush b s)

/-- The result of PUSHS: status OK, since no PUSH faults (R88), and the records of all its PUSHes (R53).
PUSHS has no encoding of its own, so it is the view of its PUSHes' results, not a result returned. -/
def pushsResult (bs : Bytes) (s : State) : Result := resultFrames (pushsFrames bs s)

/-- PUSH (R67). It never faults (R88). -/
def execPush (b : Byte) (s : State) : Host.Outcome State Fault Refusal := .next (afterPush b s)

/-- CLEAR (R78). -/
def execClear (s : State) : Host.Outcome State Fault Refusal :=
  .next (s.emptyBuf.returnResult resultOk)

end Sys2Proof.Machine
end

