-- ==== Sys2Proof/Machine/Dispatch.lean ====
section
/-! DEFINITION. One arm per operation (30_encoding R48): each calls its own meaning. -/

namespace Sys2Proof.Machine

def exec (i : Instr) (s : State) : Host.Outcome State Fault Refusal :=
  match i with
  | .clear => Sys2Proof.Machine.execClear s
  | .push b => Sys2Proof.Machine.execPush b s
  | .encode a c p => Sys2Proof.Machine.execEncode a c p s
  | .verify x => Sys2Proof.Machine.execVerify x s

end Sys2Proof.Machine
end

