-- ==== Sys2Proof/Machine/Step.lean ====
section
/-!
DEFINITION. One step: the block takes the host's next event. An operation is one atomic transaction
(00_scope R12); reset comes between operations (70_reset_and_hazards R98); where the host does
nothing, nothing happens (R102, log entry 3).
-/

namespace Sys2Proof.Machine

/-- One step of the block with its host. -/
def step (s : State) : Host.Outcome State Fault Refusal :=
  match s.host with
  | [] => .next s.idle
  | .reset :: rest => .next (s.setHost rest).assertReset
  | .operation w :: rest => exec (decode w) (s.setHost rest)

/-- `s` with the operation of an opcode-table word, its ports idle, as the host's next event. -/
def State.withFetchWord (s : State) (nbits w : Nat) : State :=
  s.setHost (.operation (issueOfTableWord nbits w) :: s.host)

end Sys2Proof.Machine
end

