-- ==== Sys2Proof/Safety.lean ====
section
/-!
DEFINITION. The terms claims are stated in: what holds between operations (10_state R17, R18), the
scan loop as a relation that reads like the pseudocode of 41_stream_reassembler R67, where the
bytes of a stream end up (R80), and runs of several operations.
-/

namespace Sys2Proof.Machine

/-- The buffer bound between operations (R17). -/
abbrev State.bounded (s : State) : Prop := s.buf.length < Config.bufCap

/-- The buffer is empty, or starts with STX and is incomplete (R18). -/
def waiting (buf : Bytes) : Bool :=
  buf.isEmpty ||
    (buf.head? == some Config.stx &&
      (decide (buf.length < Config.hdrLen) || decide (buf.length < requiredLength buf)))

/-- What holds between operations: the bound (R17), and the shape where the instance drains (R18). -/
abbrev State.inv (s : State) : Prop :=
  s.bounded ∧ (s.config.drainOnEmit = true → waiting s.buf = true)

/-- The buffer starts with STX and holds all the bytes its length byte declares, so step F forms a
candidate of it (R73). -/
abbrev complete (buf : Bytes) : Prop :=
  buf.head? = some Config.stx ∧ Config.hdrLen ≤ buf.length ∧ requiredLength buf ≤ buf.length

/-- The scan loop of R67 step by step: from a buffer, the candidates emitted in order and the buffer
left. One rule for each way a pass can go. -/
inductive ScanLoop (drain : Bool) : Bytes → List Bytes → Bytes → Prop where
  /-- Step B drops one byte that is not STX (R69). -/
  | drop (b : Byte) (buf : Bytes) (fs : List Bytes) (out : Bytes) :
      b ≠ Config.stx → ScanLoop drain buf fs out → ScanLoop drain (b :: buf) fs out
  /-- Step B ends on an empty buffer, and step C exits (R69, R70). -/
  | empty : ScanLoop drain [] [] []
  /-- Step C: too few bytes to read the length (R70). -/
  | headerWait (buf : Bytes) :
      buf.head? = some Config.stx → buf.length < 4 → ScanLoop drain buf [] buf
  /-- Step E: fewer bytes than declared (R72). -/
  | lengthWait (buf : Bytes) :
      buf.head? = some Config.stx → 4 ≤ buf.length → buf.length < requiredLength buf →
        ScanLoop drain buf [] buf
  /-- Step G where the instance does not drain: emit and exit (R75). -/
  | acceptExit (buf : Bytes) :
      complete buf → verifyFrame (buf.take (requiredLength buf)) = true → drain = false →
        ScanLoop drain buf [buf.take (requiredLength buf)] (buf.drop (requiredLength buf))
  /-- Step G where the instance drains: emit and scan again (R75). -/
  | acceptAgain (buf : Bytes) (fs : List Bytes) (out : Bytes) :
      complete buf → verifyFrame (buf.take (requiredLength buf)) = true → drain = true →
        ScanLoop drain (buf.drop (requiredLength buf)) fs out →
          ScanLoop drain buf (buf.take (requiredLength buf) :: fs) out
  /-- Step H: drop exactly one byte and scan again (R74). -/
  | reject (buf : Bytes) (fs : List Bytes) (out : Bytes) :
      complete buf → verifyFrame (buf.take (requiredLength buf)) = false →
        ScanLoop drain (buf.drop 1) fs out → ScanLoop drain buf fs out

/-- Where the bytes of a stream end up (R80): `stream` is the frames `fs`, each a contiguous run and
in this order, with dropped or discarded bytes before, between and after them, and at its end the bytes still
held. Nothing is doubled, moved or changed. -/
def Conserves : Bytes → List Bytes → Bytes → Prop
  | stream, [], held => ∃ dropped, stream = dropped ++ held
  | stream, f :: fs, held =>
    ∃ dropped later, stream = dropped ++ f ++ later ∧ Conserves later fs held

/-- The raw frames a result carries (R56, R77). -/
def Result.raws (r : Result) : List Bytes := (returnedFrames r).map EmittedFrame.raw

/-- The records the results carry, concatenated in the order returned (R53, R77). -/
def emittedFrames (rs : List Result) : List EmittedFrame := rs.flatMap returnedFrames

/-- The raw frames the results carry, in the order returned (R38, R53). -/
def emittedRaws (rs : List Result) : List Bytes := rs.flatMap Result.raws

/-- The bytes a program pushes, in order (R80). -/
def pushedBytes : List Instr → Bytes
  | [] => []
  | .push b :: prog => b :: pushedBytes prog
  | _ :: prog => pushedBytes prog

/-- A program as the host issues it: the operations' encodings, in order (R52). -/
def assemble (prog : List Instr) : List HostEvent := prog.map fun i => .operation (encode i)

/-- The operations of a program carried out one after the other (R35). -/
def execAll : List Instr → State → Host.Outcome State Fault Refusal
  | [], s => .next s
  | i :: prog, s =>
    match exec i s with
    | .next t => execAll prog t
    | .fault r => .fault r
    | .refused r => .refused r

/-- So many steps, ending at the first that does not answer a next state. -/
def steps : Nat → State → Host.Outcome State Fault Refusal
  | 0, s => .next s
  | k + 1, s =>
    match step s with
    | .next t => steps k t
    | .fault r => .fault r
    | .refused r => .refused r

end Sys2Proof.Machine
end

