-- ==== Sys2Proof/Certificates/Slice0/Obligations.lean ====
section
/-!
DEFINITION. The statements for the provers. Each is about the machine, for all states and operands
but where it names a case; its docstring cites the rules it formalises.
-/

open Sys2Proof Sys2Proof.Machine

/-! ### Reset, the host's events and the operation word -/

/-- R24: the reset value of the buffer is the empty sequence, for every instance. -/
def Obligations.ResetLeavesEmptyBuffer : Prop :=
  State.reset.buf = [] ∧ ∀ p, (State.resetFor p).buf = [] ∧ (State.resetFor p).config = p

/-- The reset state of every instance meets the invariant of R17 and R18. -/
def Obligations.ResetMeetsInvariant : Prop :=
  State.reset.inv ∧ ∀ p, (State.resetFor p).inv

/-- R98: reset sets the buffer to `[]` and changes nothing else of the block. Its effect on the buffer
and the configuration is that of CLEAR, which returns a result as well. MODEL'S CHOICES: reset takes
effect between two operations and returns no result (log entry 10), and the results already recorded
are kept (log entry 4). -/
def Obligations.ResetEmptiesBuffer : Prop :=
  ∀ s rest, s.host = .reset :: rest →
    step s = .next { s with host := rest, buf := [] } ∧
      ∃ u, exec .clear { s with host := rest } = .next u ∧ u.buf = [] ∧
        u.config = s.config ∧ u.host = rest

/-- A step at an operation the host issues is `exec` of the decoded operation, with that event
taken off the host's list. -/
def Obligations.StepRunsDecodedOperation : Prop :=
  ∀ s w rest, s.host = .operation w :: rest →
    step s = exec (decode w) { s with host := rest }

/-- MODEL'S CHOICE (log entry 3): where the host has nothing to do, a step changes nothing. -/
def Obligations.IdleHostChangesNothing : Prop :=
  ∀ s, s.host = [] → step s = .next s

/-- R48: the operation map, each operation with its own ports (R47). -/
def Obligations.OperationMapDecodes : Prop :=
  ∀ p : Ports,
    decode { op := 0b00, ports := p } = .clear ∧
    decode { op := 0b01, ports := p } = .push p.byteIn ∧
    decode { op := 0b10, ports := p } = .encode p.addrIn p.cmdIn p.payloadIn ∧
    decode { op := 0b11, ports := p } = .verify p.candIn

/-- Decode of encode is the operation, with every operand; encode of decode is the issue, where the
issue leaves the ignored ports idle. -/
def Obligations.DecodeEncodeAgree : Prop :=
  (∀ i : Instr, decode (encode i) = i) ∧ ∀ w : Issue, w.wellFormed = true → encode (decode w) = w

/-- R35, R52: a program issued by the host runs as its operations one after the other, each complete
before the next, whatever the host does after it. -/
def Obligations.ProgramRunsInIssueOrder : Prop :=
  ∀ (prog : List Instr) (s : State) (rest : List HostEvent),
    s.host = assemble prog ++ rest →
      steps prog.length s = execAll prog { s with host := rest }

/-! ### What every operation does -/

/-- Every operation completes from every state; it returns exactly one result, whose fields are
those R56 gives the operation, and touches neither the configuration (R21) nor the host. -/
def Obligations.EachOperationReturnsItsResult : Prop :=
  ∀ i s, ∃ t r, exec i s = .next t ∧ t.results = s.results ++ [r] ∧
    t.config = s.config ∧ t.host = s.host ∧
    (i = .clear → r = { status := .ok, frameOut := none, valid := none, frames := none }) ∧
    (r.frameOut.isSome = true ↔ (∃ a c p, i = .encode a c p) ∧ r.status = .ok) ∧
    (∀ f, r.frameOut = some f → 7 ≤ f.length ∧ f.length ≤ 262) ∧
    (r.valid.isSome = true ↔ ∃ x, i = .verify x) ∧
    (r.frames.isSome = true ↔ ∃ b, i = .push b)

/-- R85: the status is PAYLOAD_TOO_LONG for ENCODE of more than 255 bytes, and OK otherwise. -/
def Obligations.StatusTellsOverlongEncode : Prop :=
  ∀ i s, ∃ t r, exec i s = .next t ∧ t.results = s.results ++ [r] ∧
    ((∃ a c p, i = .encode a c p ∧ 255 < p.length) →
      r.status = .payloadTooLong ∧ statusCode r.status = 1) ∧
    ((¬ ∃ a c p, i = .encode a c p ∧ 255 < p.length) → r.status = .ok ∧ statusCode r.status = 0)

/-- No step stops the machine: no operation word is illegal (R49), no failure crashes the block (R86,
R87, R88), and reset empties the buffer and goes on (R98). MODEL'S CHOICE: where the host has nothing
to do, a step answers the same state (log entry 3). -/
def Obligations.EveryStepAnswersNext : Prop :=
  ∀ s, ∃ t, step s = .next t

/-- The configuration is fixed: no step writes it (R21). -/
def Obligations.StepKeepsConfiguration : Prop :=
  ∀ s t, step s = .next t → t.config = s.config

/-- R20: no operation reads a result, nor anything the host does later: with other results and other
events the buffer written and the result returned are the same. -/
def Obligations.ResultsAreNeverRead : Prop :=
  ∀ i s rs hs, ∃ t u r, exec i s = .next t ∧
    exec i { s with results := rs, host := hs } = .next u ∧
    t.results = s.results ++ [r] ∧ u.results = rs ++ [r] ∧
    u.buf = t.buf ∧ u.config = t.config

/-! ### ENCODE, VERIFY and the checksum -/

/-- R57: the sum of the unsigned bytes modulo 256, which is the low 8 bits of the sum and what an
8-bit accumulator that wraps holds. -/
def Obligations.ChecksumIsSumModulo256 : Prop :=
  sum8 [] = 0 ∧
    ∀ s : Bytes, (sum8 s).toNat = (s.map BitVec.toNat).sum % 256 ∧
      sum8 s = s.foldl (fun acc b => acc + b) 0

/-- R58: ENCODE returns the frame, or PAYLOAD_TOO_LONG and no frame for more than 255 bytes; it
writes nothing else. -/
def Obligations.EncodeReturnsFrame : Prop :=
  ∀ (a c : Byte) (p : Bytes) (s : State),
    (p.length ≤ 255 →
      exec (.encode a c p) s = .next { s with results := s.results ++
        [{ status := .ok, valid := none, frames := none, frameOut := some
            ([0x02, a, c, BitVec.ofNat 8 p.length] ++ p ++ [0x03] ++
              [sum8 ([0x02, a, c, BitVec.ofNat 8 p.length] ++ p ++ [0x03]), 0x0D]) }] }) ∧
    (255 < p.length →
      exec (.encode a c p) s = .next { s with results := s.results ++
        [{ status := .payloadTooLong, valid := none, frames := none, frameOut := none }] })

/-- R86, R93: the fault is in that operation's result only; the next operation runs exactly as if
the faulting one had not been issued. -/
def Obligations.OverlongEncodeIsNotLatched : Prop :=
  ∀ (a c : Byte) (p : Bytes) (s : State), 255 < p.length →
    ∃ t r, exec (.encode a c p) s = .next t ∧ t = { s with results := s.results ++ [r] } ∧
      r.status = .payloadTooLong ∧ r.frameOut = none ∧
      ∀ i, ∃ u v q, exec i s = .next u ∧ exec i t = .next v ∧
        u.results = s.results ++ [q] ∧ v.results = t.results ++ [q] ∧
        v.buf = u.buf ∧ v.config = u.config ∧ v.host = u.host

/-- R39 to R42: the frame byte by byte. The length byte counts the payload bytes, the ETX stands at
offset 4 + L, and the checksum covers STX through that ETX. A longer payload has no encoding. -/
def Obligations.EncodedFrameLayout : Prop :=
  (∀ (a c : Byte) (p : Bytes), 255 < p.length → encodeFrame a c p = none) ∧
  ∀ (a c : Byte) (p : Bytes), p.length ≤ 255 →
    ∃ f, encodeFrame a c p = some f ∧ f.length = p.length + 7 ∧
      f[0]? = some 0x02 ∧ f[1]? = some a ∧ f[2]? = some c ∧
      (∃ l, f[3]? = some l ∧ l.toNat = p.length) ∧
      (∀ i, i < p.length → f[4 + i]? = p[i]?) ∧
      f[4 + p.length]? = some 0x03 ∧
      f[5 + p.length]? = some (sum8 (f.take (5 + p.length))) ∧
      f[6 + p.length]? = some 0x0D

/-- R59, R60, R61: VERIFY returns OK and `valid`, and `valid` is exactly the five tests; offset 0 is
not among them. -/
def Obligations.VerifyTestsFiveConditions : Prop :=
  ∀ (x : Bytes) (s : State), ∃ v : Bool,
    exec (.verify x) s = .next { s with results := s.results ++
      [{ status := .ok, frameOut := none, valid := some v, frames := none }] } ∧
    (v = true ↔
      7 ≤ x.length ∧ (∃ l : Byte, x[3]? = some l ∧ x.length = l.toNat + 7) ∧
      x[x.length - 3]? = some 0x03 ∧ x[x.length - 1]? = some 0x0D ∧
      x[x.length - 2]? = some (BitVec.ofNat 8 ((x.take (x.length - 2)).map BitVec.toNat).sum))

/-- R60: VERIFY does not test offset 0. Put any byte there and mend the checksum: an accepted
candidate stays accepted. -/
def Obligations.VerifyIgnoresFirstByte : Prop :=
  ∀ (x : Bytes) (b : Byte), verifyFrame x = true →
    verifyFrame ((x.set 0 b).set (x.length - 2) (sum8 ((x.set 0 b).take (x.length - 2)))) = true

/-- R66: a candidate longer than 262 bytes is always rejected. -/
def Obligations.LongCandidateRejected : Prop :=
  ∀ (x : Bytes) (s : State), 262 < x.length →
    exec (.verify x) s = .next { s with results := s.results ++
      [{ status := .ok, frameOut := none, valid := some false, frames := none }] }

/-- R65: ENCODE and VERIFY are pure functions of their operands: one result serves every state, and
nothing else changes. -/
def Obligations.CodecIsPure : Prop :=
  (∀ a c p, ∃ r, ∀ s, exec (.encode a c p) s = .next { s with results := s.results ++ [r] }) ∧
    ∀ x, ∃ r, ∀ s, exec (.verify x) s = .next { s with results := s.results ++ [r] }

/-- R62: what ENCODE returns is accepted by VERIFY, and the fields read from it are the operands. -/
def Obligations.EncodedFrameVerifiesAndDecodes : Prop :=
  ∀ (a c : Byte) (p : Bytes) (s : State), p.length ≤ 255 →
    ∃ f, exec (.encode a c p) s = .next { s with results := s.results ++
        [{ status := .ok, frameOut := some f, valid := none, frames := none }] } ∧
      exec (.verify f) s = .next { s with results := s.results ++
        [{ status := .ok, frameOut := none, valid := some true, frames := none }] } ∧
      addressOf f = a ∧ commandOf f = c ∧ payloadOf f = p

/-- The fields of an accepted candidate that starts with STX determine it: encoding them gives it
back. R45's last sentence says so of every accepted candidate. It is not followed there: without the STX
premise it is false by R59 and R60. That resolution is the model's, log entry 9. -/
def Obligations.FieldsDetermineFrame : Prop :=
  ∀ f : Bytes, verifyFrame f = true → f.head? = some 0x02 →
    encodeFrame (addressOf f) (commandOf f) (payloadOf f) = some f

/-- The STX premise of `FieldsDetermineFrame` is needed: two different candidates, both accepted by
VERIFY, have the same fields (R60's example beside the ACK frame). So R45's last sentence is not
followed for candidates that do not start with STX; the model takes the side of R59 and R60, log
entry 9. -/
def Obligations.FieldsLeaveFirstByteOpen : Prop :=
  ∃ f g : Bytes, f ≠ g ∧ verifyFrame f = true ∧ verifyFrame g = true ∧
    addressOf f = addressOf g ∧ commandOf f = commandOf g ∧ payloadOf f = payloadOf g

/-- R63: replace any one byte of an encoded frame by a different value, the length byte included:
VERIFY rejects it. -/
def Obligations.SingleSubstitutionDetected : Prop :=
  ∀ (a c : Byte) (p f : Bytes) (i : Nat) (b : Byte) (s : State),
    encodeFrame a c p = some f → i < f.length → f[i]? ≠ some b →
      exec (.verify (f.set i b)) s = .next { s with results := s.results ++
        [{ status := .ok, frameOut := none, valid := some false, frames := none }] }

/-- R64: changes that cancel modulo 256 are not detected: two of the bytes at offset 1, offset 2 or
in the payload, changed so that their sum stays, leave the candidate accepted. Swapping two payload
bytes is one such change. -/
def Obligations.CancellingChangesAccepted : Prop :=
  ∀ (x : Bytes) (i j : Nat) (b d : Byte), verifyFrame x = true → i < j → j + 3 < x.length →
    0 < i → i ≠ 3 → j ≠ 3 → b + d = x.getD i 0 + x.getD j 0 →
      verifyFrame ((x.set i b).set j d) = true

/-! ### PUSH: the scan and its steps -/

/-- R67, R68, R77: PUSH appends the byte and runs the scan loop as its pseudocode has it; it leaves
the loop's buffer and returns the records of the candidates emitted, in order, with status OK. -/
def Obligations.PushRunsScanLoop : Prop :=
  ∀ (b : Byte) (s : State), ∃ fs out,
    ScanLoop s.config.drainOnEmit (s.buf ++ [b]) fs out ∧
    exec (.push b) s = .next { s with buf := out, results := s.results ++
      [{ status := .ok, frameOut := none, valid := none, frames := some (fs.map fun f =>
          { raw := f, address := f.getD 1 0, command := f.getD 2 0,
            payload := (f.take (4 + (f.getD 3 0).toNat)).drop 4 }) }] }

/-- The scan loop leaves no choice: from one buffer it emits one list of frames and leaves one
buffer, so the scan of `PushRunsScanLoop` is the only one. -/
def Obligations.ScanLoopIsDeterministic : Prop :=
  ∀ drain buf fs out gs out', ScanLoop drain buf fs out → ScanLoop drain buf gs out' →
    fs = gs ∧ out = out'

/-- R69: step B removes the bytes before the first STX and no others. -/
def Obligations.ResyncDropsUpToStx : Prop :=
  ∀ buf : Bytes, ∃ dropped, buf = dropped ++ resync buf ∧ (0x02 : Byte) ∉ dropped ∧
    (resync buf = [] ∨ (resync buf).head? = some 0x02)

/-- R70: a resynchronized buffer of fewer than 4 bytes, the empty one and a lone STX among them, ends
the scan as it is; any header threshold from 4 to 7 gives the same scan. -/
def Obligations.HeaderThresholdIsImmaterial : Prop :=
  (∀ (drain : Bool) (buf : Bytes), buf = [] ∨ buf.head? = some 0x02 → buf.length < 4 →
    scan drain buf = ([], buf)) ∧
  ∀ (hdr : Nat) (drain : Bool) (passes : Nat) (buf : Bytes), 4 ≤ hdr → hdr ≤ 7 →
    scanPasses hdr drain passes buf = scanPasses 4 drain passes buf

/-- R71: the required length is the length byte plus 7, without wrapping, in 7..262. MODEL'S CHOICE:
for a sequence of fewer than 4 bytes, which has no length byte, the byte read is 0 (log entry 7). -/
def Obligations.RequiredLengthDoesNotWrap : Prop :=
  ∀ s : Bytes, requiredLength s = (s.getD 3 0).toNat + 7 ∧
    7 ≤ requiredLength s ∧ requiredLength s ≤ 262

/-- R72, and R70's wait: a PUSH that leaves the head candidate incomplete emits nothing and drops
nothing. -/
def Obligations.IncompleteCandidateWaits : Prop :=
  ∀ (b : Byte) (s : State), (s.buf ++ [b]).head? = some 0x02 →
    ((s.buf ++ [b]).length < 4 ∨
      (s.buf ++ [b]).length < ((s.buf ++ [b]).getD 3 0).toNat + 7) →
    exec (.push b) s = .next { s with buf := s.buf ++ [b], results := s.results ++
      [{ status := .ok, frameOut := none, valid := none, frames := some [] }] }

/-- R73: the candidate of a complete buffer starts with STX and has the length it declares, so only
VERIFY's ETX, CR and checksum tests can fail. -/
def Obligations.CandidateFailsOnlyByContent : Prop :=
  ∀ buf : Bytes, complete buf → ∃ cand, cand = buf.take (requiredLength buf) ∧
    cand.head? = some 0x02 ∧ cand.length = (cand.getD 3 0).toNat + 7 ∧
    (verifyFrame cand = true ↔
      cand.getD (cand.length - 3) 0 = 0x03 ∧ cand.getD (cand.length - 1) 0 = 0x0D ∧
      cand.getD (cand.length - 2) 0 = sum8 (cand.take (cand.length - 2)))

/-- R74: a rejected candidate costs exactly its leading STX; the scan goes on with the rest of the
buffer. -/
def Obligations.RejectedCandidateDropsOneByte : Prop :=
  ∀ (b : Byte) (s : State), complete (s.buf ++ [b]) →
    verifyFrame ((s.buf ++ [b]).take (requiredLength (s.buf ++ [b]))) = false →
    exec (.push b) s = .next { s with
      buf := (scan s.config.drainOnEmit ((s.buf ++ [b]).drop 1)).2
      results := s.results ++
        [{ status := .ok, frameOut := none, valid := none, frames :=
          some ((scan s.config.drainOnEmit ((s.buf ++ [b]).drop 1)).1.map emittedFrame) }] }

/-- R75: an accepted candidate is emitted and its bytes are removed from the head; the scan goes on
with the rest where the instance drains, and ends there where it does not. -/
def Obligations.AcceptedCandidateIsEmitted : Prop :=
  ∀ (b : Byte) (s : State) (cand rest : Bytes), complete (s.buf ++ [b]) →
    cand = (s.buf ++ [b]).take (requiredLength (s.buf ++ [b])) →
    rest = (s.buf ++ [b]).drop (requiredLength (s.buf ++ [b])) → verifyFrame cand = true →
    (s.config.drainOnEmit = true →
      exec (.push b) s = .next { s with buf := (scan true rest).2, results := s.results ++
        [{ status := .ok, frameOut := none, valid := none, frames :=
          some (emittedFrame cand :: (scan true rest).1.map emittedFrame) }] }) ∧
    (s.config.drainOnEmit = false →
      exec (.push b) s = .next { s with buf := rest, results := s.results ++
        [{ status := .ok, frameOut := none, valid := none, frames :=
          some [emittedFrame cand] }] })

/-- R76: the scan ends within `|buf| + 1` passes; more passes change nothing. -/
def Obligations.ScanEndsWithinLengthPlusOne : Prop :=
  ∀ (drain : Bool) (buf : Bytes) (passes : Nat), buf.length + 1 ≤ passes →
    scanPasses 4 drain passes buf = scan drain buf

/-- A byte that is not STX arriving at an empty buffer is dropped at once, and nothing reports it;
an STX starts a new candidate (R67's corner cases, R83). -/
def Obligations.FirstByteIsDroppedUnlessStx : Prop :=
  ∀ (b : Byte) (s : State), s.buf = [] →
    exec (.push b) s = .next { s with buf := if b = 0x02 then [b] else [], results := s.results ++
      [{ status := .ok, frameOut := none, valid := none, frames := some [] }] }

/-- R53: PUSHS is its bytes' PUSHes in order: one result for each byte, the k-th that of the PUSH of
byte k in the state the earlier ones left. Its own result is status OK with the concatenation, in
order, of their lists of emitted-frame records; it has no encoding of its own. -/
def Obligations.PushsExpandsToPushes : Prop :=
  ∀ (bs : Bytes) (s : State) (rest : List HostEvent),
    s.host = assemble (expandPushs bs) ++ rest →
      ∃ new, steps bs.length s = .next (afterPushs bs { s with host := rest }) ∧
        execAll (bs.map Instr.push) { s with host := rest } =
          .next (afterPushs bs { s with host := rest }) ∧
        (afterPushs bs { s with host := rest }).results = s.results ++ new ∧
        new.length = bs.length ∧ (∀ r ∈ new, r.status = .ok ∧ r.frames.isSome = true) ∧
        (∀ k b, bs[k]? = some b → ∃ t, exec (.push b) (afterPushs (bs.take k) s) = .next t ∧
          ∃ r, new[k]? = some r ∧ t.results = (afterPushs (bs.take k) s).results ++ [r]) ∧
        pushsResult bs s =
          { status := .ok, frameOut := none, valid := none, frames := some (emittedFrames new) }

/-! ### Invariants -/

/-- R17: between operations the buffer holds at most 261 bytes, and every step keeps that; inside a
PUSH, after its append, it holds at most 262. -/
def Obligations.StepKeepsBufferBound : Prop :=
  ∀ s, s.buf.length ≤ 261 →
    (∀ t, step s = .next t → t.buf.length ≤ 261) ∧
      ∀ b, (appendTail s.buf b).length ≤ 262

/-- Every step keeps the invariant: the bound of R17, and the shape of R18 where the instance
drains. -/
def Obligations.StepKeepsInvariant : Prop :=
  ∀ s t, s.inv → step s = .next t → t.inv

/-- R18's shape after any PUSH of an instance that drains, whatever the buffer was before. -/
def Obligations.DrainingPushLeavesWaitingBuffer : Prop :=
  ∀ (b : Byte) (s : State), s.config.drainOnEmit = true →
    ∃ t, exec (.push b) s = .next t ∧
      (t.buf = [] ∨ (t.buf.head? = some 0x02 ∧
        (t.buf.length < 4 ∨ t.buf.length < (t.buf.getD 3 0).toNat + 7)))

/-- R19: without draining, a PUSH emits at most one frame. If it emits one, the buffer is what
followed that frame, kept as it is; if none, the buffer has the shape of R18. -/
def Obligations.SingleEmitPushKeepsRemainder : Prop :=
  ∀ (b : Byte) (s : State), s.config.drainOnEmit = false →
    ∃ t fs, exec (.push b) s = .next t ∧
      t.results = s.results ++
        [{ status := .ok, frameOut := none, valid := none, frames := some fs }] ∧
      ((∃ f dropped, fs = [emittedFrame f] ∧ s.buf ++ [b] = dropped ++ f ++ t.buf) ∨
        (fs = [] ∧ waiting t.buf = true))

/-! ### The resynchronizer over a stream -/

/-- R79, R77: every emitted record holds a well-formed frame: it starts with STX, VERIFY accepts it,
it is 7 to 262 bytes long, its fields are those of its bytes, and they encode to it again. -/
def Obligations.EmittedFramesAreWellFormed : Prop :=
  ∀ (b : Byte) (s : State), ∃ t fs, exec (.push b) s = .next t ∧
    t.results = s.results ++
      [{ status := .ok, frameOut := none, valid := none, frames := some fs }] ∧
    ∀ r ∈ fs, r.raw[0]? = some 0x02 ∧ verifyFrame r.raw = true ∧
      7 ≤ r.raw.length ∧ r.raw.length ≤ 262 ∧
      r.raw[1]? = some r.address ∧ r.raw[2]? = some r.command ∧
      (∃ l : Byte, r.raw[3]? = some l ∧ r.payload = (r.raw.take (4 + l.toNat)).drop 4) ∧
      encodeFrame r.address r.command r.payload = some r.raw

/-- R80: any operations from an empty buffer. The bytes they push are, in order, dropped or discarded
bytes, the emitted frames each a contiguous run, and at the end the buffer: nothing is doubled,
reordered or changed. So frames come out in stream order (R38), and no frame before its own last
byte (R82). The buffer is a suffix of what was pushed from the start, or from any CLEAR, on. -/
def Obligations.PushedBytesAreConserved : Prop :=
  ∀ (prog : List Instr) (s : State), s.buf = [] →
    ∃ t new, execAll prog s = .next t ∧ t.results = s.results ++ new ∧
      Conserves (pushedBytes prog) (emittedRaws new) t.buf ∧
      ∀ before after, prog = before ++ after →
        before = [] ∨ before.getLast? = some Instr.clear → t.buf <:+ pushedBytes after

/-- R81: with an empty buffer, noise that holds no STX and then an encoded frame: nothing is emitted
until the frame's last byte, whose PUSH emits exactly that frame and leaves the buffer empty. The
noise leaves the buffer empty byte by byte. This holds for both values of DRAIN_ON_EMIT. -/
def Obligations.FrameAfterNoiseIsRecovered : Prop :=
  ∀ (noise f p : Bytes) (a c : Byte) (s : State), s.buf = [] → (0x02 : Byte) ∉ noise →
    encodeFrame a c p = some f →
    (∀ k, k ≤ noise.length → (afterPushs (noise.take k) s).buf = []) ∧
    (∀ k, k < noise.length + f.length → ∃ new,
      (afterPushs ((noise ++ f).take k) s).results = s.results ++ new ∧ emittedRaws new = []) ∧
    ∃ new last, (afterPushs (noise ++ f) s).results = s.results ++ (new ++ [last]) ∧
      emittedRaws new = [] ∧
      last =
        { status := .ok, frameOut := none, valid := none, frames :=
          some [{ raw := f, address := a, command := c, payload := p }] } ∧
      (afterPushs (noise ++ f) s).buf = []

/-- A false start holds everything back (R103): while the head candidate lacks bytes it declares,
pushing emits nothing and keeps every byte, a whole genuine frame among them. -/
def Obligations.FalseStartStallsFrames : Prop :=
  ∀ (bs : Bytes) (s : State), s.buf.head? = some 0x02 → 4 ≤ s.buf.length →
    s.buf.length + bs.length < (s.buf.getD 3 0).toNat + 7 →
    (afterPushs bs s).buf = s.buf ++ bs ∧
      ∃ new, (afterPushs bs s).results = s.results ++ new ∧ emittedRaws new = []

/-- How a stalled frame is released (R103): once the false candidate at the head is complete and
VERIFY rejects it, and no other STX stands before the genuine frame, that PUSH emits the genuine
frame first, though it may have ended long before the byte just pushed. -/
def Obligations.RejectedFalseStartReleasesFrame : Prop :=
  ∀ (a c b : Byte) (p f junk later : Bytes) (s : State), complete (s.buf ++ [b]) →
    verifyFrame ((s.buf ++ [b]).take (requiredLength (s.buf ++ [b]))) = false →
    (s.buf ++ [b]).drop 1 = junk ++ f ++ later → (0x02 : Byte) ∉ junk →
    encodeFrame a c p = some f →
    ∃ t more, exec (.push b) s = .next t ∧
      t.results = s.results ++
        [{ status := .ok, frameOut := none, valid := none, frames :=
          some (emittedFrame f :: more) }] ∧
      (s.config.drainOnEmit = false → more = [] ∧ t.buf = later)

/-- R104's example: the stream `02 05` and then a genuine frame of 19 bytes emits the false frame
`02 05 02 00 03 0C 0D`, and the genuine frame never, for both values of DRAIN_ON_EMIT. -/
def Obligations.ChanceAcceptanceSwallowsFrame : Prop :=
  ∀ s : State, s.buf = [] →
    ∃ f, encodeFrame 0x00 0x03 [0x0D, 0, 0, 0, 0, 0, 0, 0, 0, 0, 0, 0] = some f ∧
      f = [0x02, 0x00, 0x03, 0x0C, 0x0D, 0, 0, 0, 0, 0, 0, 0, 0, 0, 0, 0, 0x03, 0x21, 0x0D] ∧
      (afterPushs ([0x02, 0x05] ++ f) s).buf = [] ∧
      ∃ new, (afterPushs ([0x02, 0x05] ++ f) s).results = s.results ++ new ∧
        emittedRaws new = [[0x02, 0x05, 0x02, 0x00, 0x03, 0x0C, 0x0D]]

/-- R105: two whole frames `f` and `g` come free at one PUSH, behind a false start that this PUSH
completes and VERIFY rejects (V-P8), with no STX between it and `f`. An instance that drains emits both.
One that does not emits `f` and keeps `g`, and so it does where the frames stand at the head with no
false start before them. The next PUSH, of whatever byte, then emits `g`, and no operations without a
PUSH among them emit anything. -/
def Obligations.SecondFrameWaitsWithoutDraining : Prop :=
  ∀ (a c a' c' b : Byte) (p p' f g junk : Bytes) (s : State),
    encodeFrame a c p = some f → encodeFrame a' c' p' = some g →
    (complete (s.buf ++ [b]) ∧
        verifyFrame ((s.buf ++ [b]).take (requiredLength (s.buf ++ [b]))) = false ∧
        (s.buf ++ [b]).drop 1 = junk ++ f ++ g ∧ (0x02 : Byte) ∉ junk) ∨
      (s.config.drainOnEmit = false ∧ s.buf ++ [b] = f ++ g) →
    (s.config.drainOnEmit = true →
      exec (.push b) s = .next { s with buf := [], results := s.results ++
        [{ status := .ok, frameOut := none, valid := none, frames :=
          some [emittedFrame f, emittedFrame g] }] }) ∧
    (s.config.drainOnEmit = false →
      ∃ t, exec (.push b) s = .next t ∧
        t = { s with buf := g, results := s.results ++
          [{ status := .ok, frameOut := none, valid := none, frames :=
            some [emittedFrame f] }] } ∧
        (∀ d, exec (.push d) t = .next { t with buf := [d], results := t.results ++
          [{ status := .ok, frameOut := none, valid := none, frames :=
            some [emittedFrame g] }] }) ∧
        ∀ prog : List Instr, (∀ d, Instr.push d ∉ prog) →
          ∃ u new, execAll prog t = .next u ∧ u.results = t.results ++ new ∧ emittedFrames new = [])

/-- R78: CLEAR empties the buffer, returns OK and nothing else, and changes nothing else. A frame it
cuts is lost: its later bytes, where none is STX, are dropped and emit nothing. -/
def Obligations.ClearEmptiesBuffer : Prop :=
  ∀ s, ∃ t, exec .clear s = .next t ∧
    t = { s with buf := [], results := s.results ++
      [{ status := .ok, frameOut := none, valid := none, frames := none }] } ∧
    ∀ bs : Bytes, (0x02 : Byte) ∉ bs → (afterPushs bs t).buf = [] ∧
      ∃ new, (afterPushs bs t).results = t.results ++ new ∧ emittedRaws new = []

/-- R106: after CLEAR or reset, later bytes of a broken frame are dropped as noise; the first one
that is STX starts a candidate. -/
def Obligations.BytesAfterClearOrResetAreNoise : Prop :=
  ∀ (s t : State) (bs : Bytes),
    (exec .clear s = .next t ∨ ∃ rest, s.host = .reset :: rest ∧ step s = .next t) →
    (0x02 : Byte) ∉ bs →
    (afterPushs bs t).buf = [] ∧ (afterPushs (bs ++ [0x02]) t).buf = [0x02] ∧
      ∃ new, (afterPushs (bs ++ [0x02]) t).results = t.results ++ new ∧ emittedRaws new = []
end

