-- ==== Sys2Proof/Laws/Codec.lean ====
section
/-!
SUPPORT. What the codec's shared operations do: reading a byte, the checksum, the frame built, and
the predicate that accepts a candidate. One spec lemma for each.
-/

namespace Sys2Proof.Machine

/-- Inside the sequence, `byteAt` is the indexed byte. -/
theorem byteAt_eq_getElem (s : Bytes) (i : Nat) (h : i < s.length) : byteAt s i = s[i] := by
  simp [byteAt, h]

/-- `byteAt` answers `v` where the sequence has `v` at that offset. -/
theorem byteAt_of_getElem? {s : Bytes} {i : Nat} {v : Byte} (h : s[i]? = some v) :
    byteAt s i = v := by simp [byteAt, h]

/-- The required length lies between the shortest and the longest frame (R71). -/
theorem requiredLength_bounds (s : Bytes) : 7 ≤ requiredLength s ∧ requiredLength s ≤ 262 := by
  have := (byteAt s 3).isLt
  simp only [requiredLength, declaredLength, Config.frameOverhead]
  omega

/-- Reading a byte of a prefix. -/
theorem byteAt_take (s : Bytes) (n i : Nat) (h : i < n) : byteAt (s.take n) i = byteAt s i := by
  simp [byteAt, List.getD, h]

/-- Reading a byte of what follows a prefix. -/
theorem byteAt_append_left (s t : Bytes) (i : Nat) (h : i < s.length) :
    byteAt (s ++ t) i = byteAt s i := by
  simp [byteAt, List.getElem?_append_left h]

/-- Inside the sequence, what `byteAt` answers is what stands there. -/
theorem byteAt_eq_iff {s : Bytes} {i : Nat} {v : Byte} (h : i < s.length) :
    byteAt s i = v ↔ s[i]? = some v := by simp [byteAt, h]

/-- A substituted byte is read back. -/
theorem byteAt_set_self {s : Bytes} {i : Nat} (v : Byte) (h : i < s.length) :
    byteAt (s.set i v) i = v := by simp [byteAt, List.getD, h]

/-- A substitution leaves every other byte. -/
theorem byteAt_set_ne {s : Bytes} {i j : Nat} (v : Byte) (h : i ≠ j) :
    byteAt (s.set i v) j = byteAt s j := by simp [byteAt, List.getD, h]

@[simp] theorem sum8_nil : sum8 [] = 0 := rfl

@[simp] theorem sum8_cons (b : Byte) (s : Bytes) : sum8 (b :: s) = b + sum8 s := by
  apply BitVec.eq_of_toNat_eq
  simp [sum8, BitVec.toNat_add]

@[simp] theorem sum8_append (s t : Bytes) : sum8 (s ++ t) = sum8 s + sum8 t := by
  induction s with
  | nil => simp
  | cons b s ih => simp [ih, BitVec.add_assoc]

/-- A substitution changes the checksum by the difference of the two bytes. -/
theorem sum8_set {s : Bytes} {i : Nat} (v : Byte) (h : i < s.length) :
    sum8 (s.set i v) + byteAt s i = sum8 s + v := by
  induction s generalizing i with
  | nil => simp at h
  | cons b s ih =>
    cases i with
    | zero => simp [byteAt]; ring
    | succ i =>
      have hi : byteAt (b :: s) (i + 1) = byteAt s i := by simp [byteAt]
      rw [List.set_cons_succ, sum8_cons, sum8_cons, hi, BitVec.add_assoc,
        ih (by simpa using h), BitVec.add_assoc]

/-- A payload with an encoding gives the frame of R58. -/
theorem encodeFrame_eq_some {a c : Byte} {p : Bytes} (h : p.length ≤ 255) :
    encodeFrame a c p = some (checkedPart a c p ++ [sum8 (checkedPart a c p), Config.cr]) := by
  simp [encodeFrame, Config.maxPayload, h]

/-- A longer payload has none. -/
theorem encodeFrame_eq_none {a c : Byte} {p : Bytes} (h : 255 < p.length) :
    encodeFrame a c p = none := by
  simp [encodeFrame, Config.maxPayload, h]

@[simp] theorem checkedPart_length (a c : Byte) (p : Bytes) :
    (checkedPart a c p).length = p.length + 5 := by
  simp [checkedPart]

/-- What VERIFY tests, read off (R59). -/
theorem verifyFrame_iff (x : Bytes) :
    verifyFrame x = true ↔
      7 ≤ x.length ∧ x.length = requiredLength x ∧ byteAt x (x.length - 3) = Config.etx ∧
        byteAt x (x.length - 1) = Config.cr ∧
          byteAt x (x.length - 2) = sum8 (x.take (x.length - 2)) := by
  simp [verifyFrame, slice, Config.minFrame, Config.frameOverhead, and_assoc]

/-- An accepted candidate is 7 to 262 bytes long (R66). -/
theorem verifyFrame_length {x : Bytes} (h : verifyFrame x = true) :
    7 ≤ x.length ∧ x.length ≤ 262 := by
  obtain ⟨h7, hn, -⟩ := (verifyFrame_iff x).mp h
  have := requiredLength_bounds x
  omega

/-- ENCODE answers a next state in every case. -/
theorem execEncode_eq (a c : Byte) (p : Bytes) (s : State) :
    execEncode a c p s =
      .next (s.returnResult ((encodeFrame a c p).elim resultTooLong resultFrame)) := by
  cases h : encodeFrame a c p <;> simp [execEncode, h, State.raisePayloadTooLong]

end Sys2Proof.Machine
end

