-- ==== Sys2Proof/Laws/Decode.lean ====
section
/-!
SUPPORT. What the decoder answers for each operation word: it reads the operation's own ports.
-/

namespace Sys2Proof

variable (p : Ports)

@[simp] theorem decode_clear : decode { op := 0b00, ports := p } = .clear := rfl
@[simp] theorem decode_push : decode { op := 0b01, ports := p } = .push p.byteIn := rfl
@[simp] theorem decode_encode :
    decode { op := 0b10, ports := p } = .encode p.addrIn p.cmdIn p.payloadIn := rfl
@[simp] theorem decode_verify : decode { op := 0b11, ports := p } = .verify p.candIn := rfl

end Sys2Proof
end

