-- ==== Sys2Proof/Laws/PerInstr.lean ====
section
/-!
SUPPORT. What holds of every operation as syntax: it is well-formed, and its encoding carries
nothing on the ports it ignores (30_encoding R47, R49).
-/

namespace Sys2Proof.Laws.EncodingIsCanonical

/-- The operation is legal and its encoding leaves every ignored port idle. -/
def Statement (i : Instr) : Prop := i.wellFormed = true ∧ (Sys2Proof.encode i).wellFormed = true

theorem clear : Statement .clear := ⟨rfl, rfl⟩

theorem push (b : Byte) : Statement (.push b) := by
  simp [Statement, Instr.wellFormed, Issue.wellFormed, Sys2Proof.encode, opWordOf, portsOf, idlePorts,
    Ports.frameInIdle, Ports.candInIdle]

theorem encode (a c : Byte) (p : Bytes) : Statement (.encode a c p) := by
  simp [Statement, Instr.wellFormed, Issue.wellFormed, Sys2Proof.encode, opWordOf, portsOf,
    idlePorts, Ports.byteInIdle, Ports.candInIdle]

theorem verify (x : Bytes) : Statement (.verify x) := by
  simp [Statement, Instr.wellFormed, Issue.wellFormed, Sys2Proof.encode, opWordOf, portsOf,
    idlePorts, Ports.byteInIdle, Ports.frameInIdle]

end Sys2Proof.Laws.EncodingIsCanonical
end

