-- ==== Sys2Proof/Laws/State.lean ====
section
/-!
SUPPORT. What each update of the state does to each field: one lemma per field per update.
-/

namespace Sys2Proof.Machine

variable (s : State) (b : Bytes) (r : Result) (h : List HostEvent) (p : Config.Params)

@[simp] theorem State.setBuf_buf : (s.setBuf b).buf = b := rfl
@[simp] theorem State.setBuf_config : (s.setBuf b).config = s.config := rfl
@[simp] theorem State.setBuf_host : (s.setBuf b).host = s.host := rfl
@[simp] theorem State.setBuf_results : (s.setBuf b).results = s.results := rfl

@[simp] theorem State.emptyBuf_buf : s.emptyBuf.buf = [] := rfl
@[simp] theorem State.emptyBuf_config : s.emptyBuf.config = s.config := rfl
@[simp] theorem State.emptyBuf_host : s.emptyBuf.host = s.host := rfl
@[simp] theorem State.emptyBuf_results : s.emptyBuf.results = s.results := rfl

@[simp] theorem State.returnResult_buf : (s.returnResult r).buf = s.buf := rfl
@[simp] theorem State.returnResult_config : (s.returnResult r).config = s.config := rfl
@[simp] theorem State.returnResult_host : (s.returnResult r).host = s.host := rfl
@[simp] theorem State.returnResult_results : (s.returnResult r).results = s.results ++ [r] := rfl

@[simp] theorem State.raisePayloadTooLong_buf : s.raisePayloadTooLong.buf = s.buf := rfl
@[simp] theorem State.raisePayloadTooLong_config : s.raisePayloadTooLong.config = s.config := rfl
@[simp] theorem State.raisePayloadTooLong_host : s.raisePayloadTooLong.host = s.host := rfl
@[simp] theorem State.raisePayloadTooLong_results :
    s.raisePayloadTooLong.results = s.results ++ [resultTooLong] := rfl

@[simp] theorem State.setHost_buf : (s.setHost h).buf = s.buf := rfl
@[simp] theorem State.setHost_config : (s.setHost h).config = s.config := rfl
@[simp] theorem State.setHost_host : (s.setHost h).host = h := rfl
@[simp] theorem State.setHost_results : (s.setHost h).results = s.results := rfl

@[simp] theorem State.idle_eq : s.idle = s := rfl

@[simp] theorem State.assertReset_buf : s.assertReset.buf = [] := rfl
@[simp] theorem State.assertReset_config : s.assertReset.config = s.config := rfl
@[simp] theorem State.assertReset_host : s.assertReset.host = s.host := rfl
@[simp] theorem State.assertReset_results : s.assertReset.results = s.results := rfl

@[simp] theorem State.resetFor_buf : (State.resetFor p).buf = [] := rfl
@[simp] theorem State.resetFor_config : (State.resetFor p).config = p := rfl
@[simp] theorem State.resetFor_host : (State.resetFor p).host = [] := rfl
@[simp] theorem State.resetFor_results : (State.resetFor p).results = [] := rfl

@[simp] theorem State.reset_buf : State.reset.buf = [] := rfl
@[simp] theorem State.reset_host : State.reset.host = [] := rfl
@[simp] theorem State.reset_results : State.reset.results = [] := rfl

/-- An update of one field written with the named operation is the record update. -/
theorem State.setBuf_eq : s.setBuf b = { s with buf := b } := rfl
theorem State.setHost_eq : s.setHost h = { s with host := h } := rfl
theorem State.returnResult_eq : s.returnResult r = { s with results := s.results ++ [r] } := rfl

/-- The host's events and the result port are separate fields. -/
theorem State.setHost_returnResult : (s.setHost h).returnResult r = (s.returnResult r).setHost h := rfl
theorem State.setHost_setBuf : (s.setHost h).setBuf b = (s.setBuf b).setHost h := rfl
@[simp] theorem State.setHost_setHost (h' : List HostEvent) :
    (s.setHost h).setHost h' = s.setHost h' := rfl

end Sys2Proof.Machine
end

