-- ==== Sys2Proof/Laws/Scan.lean ====
section
/-!
SUPPORT. What the resynchronizer's shared operations do: the resync step and one pass of the scan.
-/

namespace Sys2Proof.Machine

@[simp] theorem resync_nil : resync [] = [] := rfl

theorem resync_cons_stx (bs : Bytes) : resync (Config.stx :: bs) = Config.stx :: bs := by
  simp [resync]

theorem resync_cons_noise {b : Byte} (bs : Bytes) (h : b ≠ Config.stx) :
    resync (b :: bs) = resync bs := by
  simp [resync, h]

/-- The resync step removes a prefix of the buffer and nothing else. -/
theorem resync_suffix (buf : Bytes) : resync buf <:+ buf := by
  induction buf with
  | nil => exact List.suffix_refl _
  | cons b bs ih =>
    by_cases h : b = Config.stx
    · subst h; rw [resync_cons_stx]
    · rw [resync_cons_noise _ h]; exact ih.trans (List.suffix_cons b bs)

theorem resync_length_le (buf : Bytes) : (resync buf).length ≤ buf.length :=
  (resync_suffix buf).length_le

/-- After the resync step the buffer is empty or starts with STX. -/
theorem resync_head (buf : Bytes) : resync buf = [] ∨ (resync buf).head? = some Config.stx := by
  induction buf with
  | nil => exact .inl rfl
  | cons b bs ih =>
    by_cases h : b = Config.stx
    · subst h; rw [resync_cons_stx]; exact .inr rfl
    · rw [resync_cons_noise _ h]; exact ih

/-- A buffer that starts with STX is left as it is. -/
theorem resync_of_head {buf : Bytes} (h : buf.head? = some Config.stx) : resync buf = buf := by
  cases buf with
  | nil => rfl
  | cons b bs =>
    obtain rfl : b = Config.stx := by simpa using h
    exact resync_cons_stx bs

/-- Noise in front is dropped whole. -/
theorem resync_append_noise {noise : Bytes} (rest : Bytes) (h : Config.stx ∉ noise) :
    resync (noise ++ rest) = resync rest := by
  induction noise with
  | nil => rfl
  | cons b bs ih =>
    have hb : b ≠ Config.stx := fun e => h (by simp [e])
    have ht : Config.stx ∉ bs := fun e => h (List.mem_cons_of_mem b e)
    rw [List.cons_append, resync_cons_noise _ hb, ih ht]

theorem resync_noise {noise : Bytes} (h : Config.stx ∉ noise) : resync noise = [] := by
  simpa using resync_append_noise [] h

/-- One pass of the scan that waits: it ends on the resynchronized buffer. -/
theorem scanPasses_wait {hdr : Nat} {drain : Bool} {fuel : Nat} {buf : Bytes}
    (h : (resync buf).length < hdr ∨ (resync buf).length < requiredLength (resync buf)) :
    scanPasses hdr drain (fuel + 1) buf = ([], resync buf) := by
  rcases h with h | h <;> simp [scanPasses, h]

/-- One pass of the scan that accepts. -/
theorem scanPasses_accept {hdr : Nat} {drain : Bool} {fuel : Nat} {buf : Bytes}
    (hh : hdr ≤ (resync buf).length) (hn : requiredLength (resync buf) ≤ (resync buf).length)
    (hv : verifyFrame ((resync buf).take (requiredLength (resync buf))) = true) :
    scanPasses hdr drain (fuel + 1) buf =
      if drain then
        ((resync buf).take (requiredLength (resync buf)) ::
            (scanPasses hdr drain fuel ((resync buf).drop (requiredLength (resync buf)))).1,
          (scanPasses hdr drain fuel ((resync buf).drop (requiredLength (resync buf)))).2)
      else
        ([(resync buf).take (requiredLength (resync buf))],
          (resync buf).drop (requiredLength (resync buf))) := by
  simp [scanPasses, readHead, dropHead, Nat.not_lt.mpr hh, Nat.not_lt.mpr hn, hv]

/-- One pass of the scan that rejects. -/
theorem scanPasses_reject {hdr : Nat} {drain : Bool} {fuel : Nat} {buf : Bytes}
    (hh : hdr ≤ (resync buf).length) (hn : requiredLength (resync buf) ≤ (resync buf).length)
    (hv : verifyFrame ((resync buf).take (requiredLength (resync buf))) = false) :
    scanPasses hdr drain (fuel + 1) buf = scanPasses hdr drain fuel ((resync buf).drop 1) := by
  simp [scanPasses, readHead, dropHead, Nat.not_lt.mpr hh, Nat.not_lt.mpr hn, hv]

/-- Everything one pass of the scan can do, said once: it waits, accepts or rejects. -/
theorem scanPasses_cases (hdr : Nat) (drain : Bool) (fuel : Nat) (buf : Bytes) :
    (((resync buf).length < hdr ∨ (resync buf).length < requiredLength (resync buf)) ∧
        scanPasses hdr drain (fuel + 1) buf = ([], resync buf)) ∨
      (hdr ≤ (resync buf).length ∧ requiredLength (resync buf) ≤ (resync buf).length ∧
        verifyFrame ((resync buf).take (requiredLength (resync buf))) = true ∧
        scanPasses hdr drain (fuel + 1) buf =
          if drain then
            ((resync buf).take (requiredLength (resync buf)) ::
                (scanPasses hdr drain fuel
                  ((resync buf).drop (requiredLength (resync buf)))).1,
              (scanPasses hdr drain fuel ((resync buf).drop (requiredLength (resync buf)))).2)
          else
            ([(resync buf).take (requiredLength (resync buf))],
              (resync buf).drop (requiredLength (resync buf)))) ∨
      (hdr ≤ (resync buf).length ∧ requiredLength (resync buf) ≤ (resync buf).length ∧
        verifyFrame ((resync buf).take (requiredLength (resync buf))) = false ∧
        scanPasses hdr drain (fuel + 1) buf = scanPasses hdr drain fuel ((resync buf).drop 1)) := by
  by_cases hw : (resync buf).length < hdr ∨ (resync buf).length < requiredLength (resync buf)
  · exact .inl ⟨hw, scanPasses_wait hw⟩
  · have hh : hdr ≤ (resync buf).length := by omega
    have hn : requiredLength (resync buf) ≤ (resync buf).length := by omega
    cases hv : verifyFrame ((resync buf).take (requiredLength (resync buf))) with
    | true => exact .inr (.inl ⟨hh, hn, rfl, scanPasses_accept hh hn hv⟩)
    | false => exact .inr (.inr ⟨hh, hn, rfl, scanPasses_reject hh hn hv⟩)

@[simp] theorem afterPush_buf (b : Byte) (s : State) : (afterPush b s).buf = (pushScan b s).2 := rfl
@[simp] theorem afterPush_config (b : Byte) (s : State) : (afterPush b s).config = s.config := rfl
@[simp] theorem afterPush_host (b : Byte) (s : State) : (afterPush b s).host = s.host := rfl
@[simp] theorem afterPush_results (b : Byte) (s : State) :
    (afterPush b s).results =
      s.results ++ [resultFrames ((pushScan b s).1.map emittedFrame)] := rfl

@[simp] theorem afterPushs_nil (s : State) : afterPushs [] s = s := rfl
@[simp] theorem afterPushs_cons (b : Byte) (bs : Bytes) (s : State) :
    afterPushs (b :: bs) s = afterPushs bs (afterPush b s) := rfl

@[simp] theorem returnedFrames_resultFrames (fs : List EmittedFrame) :
    returnedFrames (resultFrames fs) = fs := rfl

@[simp] theorem pushsFrames_nil (s : State) : pushsFrames [] s = [] := rfl
@[simp] theorem pushsFrames_cons (b : Byte) (bs : Bytes) (s : State) :
    pushsFrames (b :: bs) s =
      (pushScan b s).1.map emittedFrame ++ pushsFrames bs (afterPush b s) := rfl

/-- PUSHS of two sequences one after the other concatenates their records. -/
theorem pushsFrames_append (bs cs : Bytes) (s : State) :
    pushsFrames (bs ++ cs) s = pushsFrames bs s ++ pushsFrames cs (afterPushs bs s) := by
  induction bs generalizing s with
  | nil => rfl
  | cons b bs ih => simp [ih]

/-- The scan of a PUSH reads the buffer and the parameter only. -/
theorem pushScan_setHost (b : Byte) (s : State) (h : List HostEvent) :
    pushScan b (s.setHost h) = pushScan b s := rfl

theorem afterPushs_append (bs cs : Bytes) (s : State) :
    afterPushs (bs ++ cs) s = afterPushs cs (afterPushs bs s) := by
  induction bs generalizing s with
  | nil => rfl
  | cons b bs ih => exact ih (afterPush b s)

@[simp] theorem afterPushs_config (bs : Bytes) (s : State) :
    (afterPushs bs s).config = s.config := by
  induction bs generalizing s with
  | nil => rfl
  | cons b bs ih => rw [afterPushs_cons, ih, afterPush_config]

@[simp] theorem afterPushs_host (bs : Bytes) (s : State) : (afterPushs bs s).host = s.host := by
  induction bs generalizing s with
  | nil => rfl
  | cons b bs ih => rw [afterPushs_cons, ih, afterPush_host]

/-- PUSHS does not look at the host's events: the state after it differs in that field only, and its
records are the same. -/
theorem afterPushs_setHost (bs : Bytes) (s : State) (h : List HostEvent) :
    afterPushs bs (s.setHost h) = (afterPushs bs s).setHost h := by
  induction bs generalizing s with
  | nil => rfl
  | cons b bs ih => exact ih (afterPush b s)

theorem pushsFrames_setHost (bs : Bytes) (s : State) (h : List HostEvent) :
    pushsFrames bs (s.setHost h) = pushsFrames bs s := by
  induction bs generalizing s with
  | nil => rfl
  | cons b bs ih => exact congrArg (_ ++ ·) (ih (afterPush b s))

end Sys2Proof.Machine
end

