-- ==== Sys2Proof/Laws/Step.lean ====
section
/-!
SUPPORT. What each arm of `exec` and each case of `step` answers, to be cited in place of unfolding.
-/

namespace Sys2Proof.Machine

theorem exec_clear (s : State) : exec .clear s = .next (s.emptyBuf.returnResult resultOk) := rfl

theorem exec_push (b : Byte) (s : State) : exec (.push b) s = .next (afterPush b s) := rfl

theorem exec_encode (a c : Byte) (p : Bytes) (s : State) :
    exec (.encode a c p) s =
      .next (s.returnResult ((encodeFrame a c p).elim resultTooLong resultFrame)) :=
  execEncode_eq a c p s

theorem exec_verify (x : Bytes) (s : State) :
    exec (.verify x) s = .next (s.returnResult (resultValid (verifyFrame x))) := rfl

/-- No operation looks at the host's events: its answer differs in that field only. -/
theorem exec_setHost (i : Instr) (s : State) (h : List HostEvent) :
    ∃ t, exec i s = .next t ∧ exec i (s.setHost h) = .next (t.setHost h) := by
  cases i with
  | clear => exact ⟨_, rfl, rfl⟩
  | push b => exact ⟨_, rfl, rfl⟩
  | encode a c p => exact ⟨_, exec_encode a c p s, exec_encode a c p (s.setHost h)⟩
  | verify x => exact ⟨_, rfl, rfl⟩

theorem step_idle {s : State} (h : s.host = []) : step s = .next s := by simp [step, h]

theorem step_reset {s : State} {rest : List HostEvent} (h : s.host = .reset :: rest) :
    step s = .next (s.setHost rest).assertReset := by simp [step, h]

theorem step_operation {s : State} {w : Issue} {rest : List HostEvent}
    (h : s.host = .operation w :: rest) : step s = exec (decode w) (s.setHost rest) := by
  simp [step, h]

end Sys2Proof.Machine
end

