-- ==== Sys2Proof/Tests/Slice0.lean ====
section
/-!
SUPPORT. The model's own tests: decoding of the operation words as 30_encoding R48 writes them, the
well-formedness checks, one step of each operation on vectors of 95_test_vectors, and for each
obligation with hypotheses a state and operands that meet them.
-/

namespace Sys2Proof.Tests

open Sys2Proof Sys2Proof.Machine

/-! ### Helpers -/

/-- An instance with the given parameter and buffer, otherwise as after reset. -/
def blockWith (drain : Bool) (buf : Bytes) : State := (State.resetFor { drainOnEmit := drain }).setBuf buf

/-- The last result of an answer. -/
def lastResult : Host.Outcome State Fault Refusal → Option Result
  | .next s => s.results.getLast?
  | _ => none

/-- The buffer after an answer. -/
def bufAfter : Host.Outcome State Fault Refusal → Option Bytes
  | .next s => some s.buf
  | _ => none

/-- The frames the last result of an answer carries. -/
def lastRaws (o : Host.Outcome State Fault Refusal) : Option (List Bytes) :=
  (lastResult o).map Result.raws

/-- ACK0 of 95_test_vectors. -/
def ack0 : Bytes := [0x02, 0x00, 0x30, 0x00, 0x03, 0x35, 0x0D]

/-- NAK0 of 95_test_vectors. -/
def nak0 : Bytes := [0x02, 0x00, 0x31, 0x00, 0x03, 0x36, 0x0D]

/-- Vector V-P8: a false start of 18 bytes with two frames inside. -/
def vp8 : Bytes := [0x02, 0x41, 0x42, 0x0B] ++ ack0 ++ nak0

/-- Ports that all carry something. -/
def busyPorts : Ports :=
  { byteIn := 0x41, addrIn := 0x12, cmdIn := 0x34, payloadIn := [0xF0], candIn := [0x02, 0x0D] }

/-! ### Constants (R5, R6) -/

theorem test_size_constants :
    Config.minFrame = 7 ∧ Config.maxFrame = 262 ∧ Config.bufCap = Config.maxFrame ∧
      Config.ftrLen = Config.frameOverhead - Config.hdrLen := by decide

/-! ### Decoding, from the operation words of R48 -/

theorem test_decode_clear : decode { op := 0b00, ports := busyPorts } = .clear := by decide

theorem test_decode_push : decode { op := 0b01, ports := busyPorts } = .push 0x41 := by decide

theorem test_decode_encode :
    decode { op := 0b10, ports := busyPorts } = .encode 0x12 0x34 [0xF0] := by decide

theorem test_decode_verify :
    decode { op := 0b11, ports := busyPorts } = .verify [0x02, 0x0D] := by decide

/-- The opcode table's words, in its numbering, with idle ports. -/
theorem test_table_words :
    decodeTableWord 8 0 = some .clear ∧ decodeTableWord 8 1 = some (.push 0) ∧
      decodeTableWord 8 2 = some (.encode 0 0 []) ∧ decodeTableWord 8 3 = some (.verify []) := by
  decide

/-- Each of them runs as the first operation after reset, for whichever DRAIN_ON_EMIT. -/
theorem test_table_words_run_from_reset :
    step (State.reset.withFetchWord 8 0) = exec .clear State.reset ∧
      step (State.reset.withFetchWord 8 1) = exec (.push 0) State.reset ∧
      step (State.reset.withFetchWord 8 2) = exec (.encode 0 0 []) State.reset ∧
      step (State.reset.withFetchWord 8 3) = exec (.verify []) State.reset :=
  ⟨rfl, rfl, rfl, rfl⟩

/-! ### Well-formedness: one ill-formed issue for each check -/

theorem test_wellFormed_refuses_byte_port :
    ({ op := 0b00, ports := { idlePorts with byteIn := 1 } } : Issue).wellFormed = false := by decide

theorem test_wellFormed_refuses_addr_port :
    ({ op := 0b01, ports := { idlePorts with addrIn := 1 } } : Issue).wellFormed = false := by decide

theorem test_wellFormed_refuses_cmd_port :
    ({ op := 0b11, ports := { idlePorts with cmdIn := 1 } } : Issue).wellFormed = false := by decide

theorem test_wellFormed_refuses_payload_port :
    ({ op := 0b01, ports := { idlePorts with payloadIn := [1] } } : Issue).wellFormed = false := by
  decide

theorem test_wellFormed_refuses_cand_port :
    ({ op := 0b10, ports := { idlePorts with candIn := [1] } } : Issue).wellFormed = false := by
  decide

/-! ### ENCODE -/

/-- V-E7: the checksum wraps and happens to equal the ETX value. -/
theorem test_encode_checksum_wraps :
    lastResult (exec (.encode 0xFF 0xFF [0xFF, 0xFF, 0xFF]) (blockWith true [])) =
      some (resultFrame [0x02, 0xFF, 0xFF, 0x03, 0xFF, 0xFF, 0xFF, 0x03, 0x03, 0x0D]) := by decide

/-- V-E8: a 0x03 in the payload does not end the checksum (C1). -/
theorem test_encode_checksum_runs_to_etx_position :
    encodeFrame 0x00 0x00 [0x02, 0x03, 0x0D] =
      some [0x02, 0x00, 0x00, 0x03, 0x02, 0x03, 0x0D, 0x03, 0x1A, 0x0D] := by decide

/-- V-E10: 256 payload bytes have no frame, and the buffer is untouched. -/
theorem test_encode_256_bytes_is_too_long :
    exec (.encode 0 0 (List.replicate 256 0)) (blockWith true ack0) =
      .next ((blockWith true ack0).returnResult
        { status := .payloadTooLong, frameOut := none, valid := none, frames := none }) := by
  rw [exec, execEncode, encodeFrame, List.length_replicate]; rfl

/-- The inventory start of R54, V-E3. -/
theorem test_encode_inventory_start :
    encodeFrame 0 Config.cmdInventoryStart [0xF0, 0x40, 0x01] =
      some [0x02, 0x00, 0x78, 0x03, 0xF0, 0x40, 0x01, 0x03, 0xB1, 0x0D] := by decide

/-! ### VERIFY -/

/-- V-V3 and V-V4: offset 0 is not tested. -/
theorem test_verify_ignores_first_byte :
    lastResult (exec (.verify [0x05, 0x00, 0x30, 0x00, 0x03, 0x38, 0x0D]) (blockWith true [])) =
      some { status := .ok, frameOut := none, valid := some true, frames := none } := by decide

/-- V-V1, V-V2, V-V5 to V-V9, V-V11, V-V12: each rejected for a reason of its own. -/
theorem test_verify_rejects :
    [[], [0x02, 0x00, 0x30, 0x00, 0x03, 0x35], ack0 ++ [0x0D],
      [0x02, 0x00, 0x30, 0x00, 0x04, 0x36, 0x0D], [0x02, 0x00, 0x30, 0x00, 0x03, 0x35, 0x0A],
      [0x02, 0x00, 0x30, 0x00, 0x03, 0x34, 0x0D], [0x02, 0x00, 0x30, 0x01, 0x03, 0x36, 0x0D],
      [0, 0, 0, 0, 0, 0, 0], [0x02, 0x00, 0x30, 0xFF, 0x03, 0x34, 0x0D]].all
        (fun x => !verifyFrame x) = true := by decide

/-! ### PUSH and CLEAR -/

/-- V-P8, #18, where the instance drains: both frames come out. -/
theorem test_push_drains :
    lastRaws (exec (.push 0x0D) (blockWith true vp8.dropLast)) = some [ack0, nak0] ∧
      bufAfter (exec (.push 0x0D) (blockWith true vp8.dropLast)) = some [] := by decide

/-- V-P8, #18, where it does not: one comes out and the other stays. -/
theorem test_push_stops_after_one :
    lastRaws (exec (.push 0x0D) (blockWith false vp8.dropLast)) = some [ack0] ∧
      bufAfter (exec (.push 0x0D) (blockWith false vp8.dropLast)) = some nak0 := by decide

/-- V-P11, #10: two false starts fall at one byte, and the third waits. -/
theorem test_push_rejects_one_byte_at_a_time :
    bufAfter (exec (.push 0x35) (blockWith true
      [0x02, 0x02, 0x02, 0x02, 0x00, 0x30, 0x00, 0x03])) =
        some [0x02, 0x02, 0x00, 0x30, 0x00, 0x03, 0x35] := by decide

/-- P-1, step 12: the record of the ACK frame. -/
theorem test_push_returns_record :
    lastResult (exec (.push 0x0D) (blockWith false ack0.dropLast)) =
      some (resultFrames
        [{ raw := ack0, address := 0x00, command := Config.cmdAck, payload := [] }]) := by decide

/-- R78's example. -/
theorem test_clear :
    bufAfter (exec .clear (blockWith false [0x02, 0x00, 0x30])) = some [] ∧
      lastResult (exec .clear (blockWith false [0x02, 0x00, 0x30])) = some
        { status := .ok, frameOut := none, valid := none, frames := none } := by decide

/-- V-P8's last byte and one more, as PUSHS: where the instance does not drain, its result joins the
records of two PUSHes (R53, R105). -/
theorem test_pushs_result :
    pushsResult [0x0D, 0x00] (blockWith false vp8.dropLast) = resultFrames
      [{ raw := ack0, address := 0x00, command := 0x30, payload := [] },
        { raw := nak0, address := 0x00, command := 0x31, payload := [] }] := by decide

/-! ### Steps -/

/-- Reset between operations empties the buffer and returns nothing (R98). -/
theorem test_reset_event :
    bufAfter (step ((blockWith true ack0).setHost [.reset])) = some [] ∧
      lastResult (step ((blockWith true ack0).setHost [.reset])) = none := by decide

/-! ### Witnesses: every obligation's hypotheses can be met -/

theorem witness_ResetEmptiesBuffer :
    ((blockWith true ack0).setHost [.reset]).host = .reset :: [] := rfl

theorem witness_StepRunsDecodedOperation :
    ((blockWith true ack0).setHost [.operation (encode (.push 2))]).host =
      .operation (encode (.push 2)) :: [] := rfl

theorem witness_IdleHostChangesNothing : (blockWith true ack0).host = [] := rfl

theorem witness_DecodeEncodeAgree : (encode (.encode 1 2 [3])).wellFormed = true := by decide

theorem witness_ProgramRunsInIssueOrder :
    ((blockWith true []).setHost (assemble [.clear, .push 2] ++ [.reset])).host =
      assemble [.clear, .push 2] ++ [.reset] := rfl

theorem witness_StatusTellsOverlongEncode :
    (∃ a c p, Instr.encode 1 2 (List.replicate 256 0) = .encode a c p ∧ 255 < p.length) ∧
      ¬ ∃ a c p, Instr.encode 1 2 (List.replicate 255 0) = .encode a c p ∧ 255 < p.length := by
  refine ⟨⟨1, 2, _, rfl, ?_⟩, ?_⟩
  · rw [List.length_replicate]; decide
  · rintro ⟨a, c, p, h, hp⟩
    cases h
    rw [List.length_replicate] at hp
    exact absurd hp (by decide)

theorem witness_StepKeepsConfiguration :
    step (blockWith true ack0) = .next (blockWith true ack0) := rfl

/-- The two sides of the payload bound, for EncodeReturnsFrame, OverlongEncodeIsNotLatched,
EncodedFrameLayout and EncodedFrameVerifiesAndDecodes. -/
theorem witness_payload_bound :
    (List.replicate 255 (0 : Byte)).length ≤ 255 ∧ 255 < (List.replicate 256 (0 : Byte)).length := by
  rw [List.length_replicate, List.length_replicate]; decide

theorem witness_VerifyIgnoresFirstByte : verifyFrame ack0 = true := by decide

theorem witness_LongCandidateRejected : 262 < (List.replicate 263 (0 : Byte)).length := by
  rw [List.length_replicate]; decide

theorem witness_FieldsDetermineFrame : verifyFrame ack0 = true ∧ ack0.head? = some 0x02 := by decide

/-- The length byte, changed. -/
theorem witness_SingleSubstitutionDetected :
    encodeFrame 0x00 0x30 [] = some ack0 ∧ 3 < ack0.length ∧ ack0[3]? ≠ some 0x01 := by decide

/-- R64's example: address plus one, command minus one. -/
theorem witness_CancellingChangesAccepted :
    verifyFrame ack0 = true ∧ 1 < 2 ∧ 2 + 3 < ack0.length ∧ 0 < 1 ∧ 1 ≠ 3 ∧ 2 ≠ 3 ∧
      (0x01 : Byte) + 0x2F = ack0.getD 1 0 + ack0.getD 2 0 ∧
      (ack0.set 1 0x01).set 2 0x2F = [0x02, 0x01, 0x2F, 0x00, 0x03, 0x35, 0x0D] := by decide

theorem witness_ScanLoopIsDeterministic :
    ScanLoop true [0x41, 0x02] [] [0x02] :=
  .drop _ _ _ _ (by decide) (.headerWait _ (by decide) (by decide))

/-- Both kinds of short buffer, and both ends of the threshold's range. -/
theorem witness_HeaderThresholdIsImmaterial :
    ([0x02, 0x00, 0x30] : Bytes).head? = some 0x02 ∧ ([0x02, 0x00, 0x30] : Bytes).length < 4 ∧
      ([] : Bytes).length < 4 ∧ 4 ≤ 7 := by decide

/-- A header wait at 3 bytes and a length wait at 6. -/
theorem witness_IncompleteCandidateWaits :
    ((blockWith true [0x02, 0x00]).buf ++ [0x30]).head? = some 0x02 ∧
      ((blockWith true [0x02, 0x00]).buf ++ [0x30]).length < 4 ∧
      ((blockWith true [0x02, 0x00, 0x30, 0x00, 0x03]).buf ++ [0x35]).head? = some 0x02 ∧
      ((blockWith true [0x02, 0x00, 0x30, 0x00, 0x03]).buf ++ [0x35]).length <
        (((blockWith true [0x02, 0x00, 0x30, 0x00, 0x03]).buf ++ [0x35]).getD 3 0).toNat + 7 := by
  decide

theorem witness_CandidateFailsOnlyByContent : complete ack0 ∧ complete (ack0 ++ nak0) := by decide

/-- V-P3, #7. -/
theorem witness_RejectedCandidateDropsOneByte :
    complete ((blockWith true [0x02, 0x00, 0x30, 0x00, 0x03, 0x36]).buf ++ [0x0D]) ∧
      verifyFrame (((blockWith true [0x02, 0x00, 0x30, 0x00, 0x03, 0x36]).buf ++ [0x0D]).take
        (requiredLength ((blockWith true [0x02, 0x00, 0x30, 0x00, 0x03, 0x36]).buf ++ [0x0D]))) =
          false := by decide

/-- V-P1, #7, for both values of the parameter. -/
theorem witness_AcceptedCandidateIsEmitted :
    ∀ drain, complete ((blockWith drain ack0.dropLast).buf ++ [0x0D]) ∧
      verifyFrame (((blockWith drain ack0.dropLast).buf ++ [0x0D]).take
        (requiredLength ((blockWith drain ack0.dropLast).buf ++ [0x0D]))) = true ∧
      (blockWith drain ack0.dropLast).config.drainOnEmit = drain := by decide

theorem witness_ScanEndsWithinLengthPlusOne : ack0.length + 1 ≤ 8 := by decide

/-- The two cases of the byte: STX and not STX. -/
theorem witness_FirstByteIsDroppedUnlessStx :
    (blockWith true []).buf = [] ∧ (0x02 : Byte) = 0x02 ∧ (0x41 : Byte) ≠ 0x02 := by decide

theorem witness_PushsExpandsToPushes :
    ((blockWith true []).setHost (assemble (expandPushs ack0) ++ [])).host =
      assemble (expandPushs ack0) ++ [] ∧ ack0[6]? = some 0x0D := ⟨rfl, by decide⟩

theorem witness_StepKeepsBufferBound :
    (blockWith true (List.replicate 261 0x02)).buf.length ≤ 261 := by
  rw [show (blockWith true (List.replicate 261 0x02)).buf = List.replicate 261 0x02 from rfl,
    List.length_replicate]

/-- A waiting buffer at 6 of its 7 bytes. -/
theorem witness_StepKeepsInvariant :
    (blockWith true ack0.dropLast).inv ∧
      step (blockWith true ack0.dropLast) = .next (blockWith true ack0.dropLast) :=
  ⟨by decide, rfl⟩

theorem witness_drain_on_emit :
    (blockWith true []).config.drainOnEmit = true ∧
      (blockWith false []).config.drainOnEmit = false := by decide

/-- A program with a CLEAR inside, cut behind it. -/
theorem witness_PushedBytesAreConserved :
    (blockWith true []).buf = [] ∧
      [Instr.push 0x02, .clear, .verify [], .push 0x02] =
        [.push 0x02, .clear] ++ [.verify [], .push 0x02] ∧
      [Instr.push 0x02, .clear].getLast? = some .clear := by decide

/-- V-P2. -/
theorem witness_FrameAfterNoiseIsRecovered :
    (blockWith true []).buf = [] ∧ (0x02 : Byte) ∉ ([0x41, 0xFF, 0x00] : Bytes) ∧
      encodeFrame 0x00 0x30 [] = some ack0 := by decide

/-- V-P6 at its bound: 4 bytes held and 50 more, one short of the 55 declared. -/
theorem witness_FalseStartStallsFrames :
    (blockWith true [0x02, 0x02, 0x00, 0x30]).buf.head? = some 0x02 ∧
      4 ≤ (blockWith true [0x02, 0x02, 0x00, 0x30]).buf.length ∧
      (blockWith true [0x02, 0x02, 0x00, 0x30]).buf.length + (List.replicate 50 (0 : Byte)).length <
        ((blockWith true [0x02, 0x02, 0x00, 0x30]).buf.getD 3 0).toNat + 7 := by decide

/-- V-P8, #18. -/
theorem witness_RejectedFalseStartReleasesFrame :
    complete ((blockWith false vp8.dropLast).buf ++ [0x0D]) ∧
      verifyFrame (((blockWith false vp8.dropLast).buf ++ [0x0D]).take
        (requiredLength ((blockWith false vp8.dropLast).buf ++ [0x0D]))) = false ∧
      ((blockWith false vp8.dropLast).buf ++ [0x0D]).drop 1 = [0x41, 0x42, 0x0B] ++ ack0 ++ nak0 ∧
      (0x02 : Byte) ∉ ([0x41, 0x42, 0x0B] : Bytes) ∧ encodeFrame 0x00 0x30 [] = some ack0 := by decide

theorem witness_ChanceAcceptanceSwallowsFrame : (blockWith false []).buf = [] := rfl

/-- V-P8, #18, for both values of the parameter, in a state that meets the invariant. -/
theorem witness_SecondFrameWaitsWithoutDraining :
    encodeFrame 0x00 0x30 [] = some ack0 ∧ encodeFrame 0x00 0x31 [] = some nak0 ∧
      (0x02 : Byte) ∉ ([0x41, 0x42, 0x0B] : Bytes) ∧
      ∀ drain, (blockWith drain vp8.dropLast).inv ∧
        (blockWith drain vp8.dropLast).config.drainOnEmit = drain ∧
        complete ((blockWith drain vp8.dropLast).buf ++ [0x0D]) ∧
        verifyFrame (((blockWith drain vp8.dropLast).buf ++ [0x0D]).take
          (requiredLength ((blockWith drain vp8.dropLast).buf ++ [0x0D]))) = false ∧
        ((blockWith drain vp8.dropLast).buf ++ [0x0D]).drop 1 =
          [0x41, 0x42, 0x0B] ++ ack0 ++ nak0 := by decide

/-- Two frames at the head of an instance that does not drain, in a state that meets the invariant. -/
theorem witness_SecondFrameWaitsWithoutDraining_at_head :
    (blockWith false (ack0 ++ nak0.dropLast)).inv ∧
      (blockWith false (ack0 ++ nak0.dropLast)).config.drainOnEmit = false ∧
      (blockWith false (ack0 ++ nak0.dropLast)).buf ++ [0x0D] = ack0 ++ nak0 := by decide

/-- A program without a PUSH. -/
theorem witness_SecondFrameWaitsWithoutDraining_without_push :
    ∀ d, Instr.push d ∉ [Instr.encode 0 0x30 [], .verify ack0, .clear] := by simp

/-- V-P7: CLEAR, or reset, in the middle of a frame, and the bytes after it. -/
theorem witness_BytesAfterClearOrResetAreNoise :
    (∃ t, exec .clear (blockWith true [0x02, 0x00, 0x30]) = .next t) ∧
      (∃ rest t, ((blockWith true [0x02, 0x00, 0x30]).setHost [.reset]).host = .reset :: rest ∧
        step ((blockWith true [0x02, 0x00, 0x30]).setHost [.reset]) = .next t) ∧
      (0x02 : Byte) ∉ ([0x00, 0x03, 0x35, 0x0D] : Bytes) :=
  ⟨⟨_, rfl⟩, ⟨_, _, rfl, rfl⟩, by decide⟩

end Sys2Proof.Tests
end

section
/-!
PROOF. The host's events and the operation word (00_scope R12, 30_encoding R46).
-/

namespace Sys2Proof.Machine

/-- Settles O4: the step's arm for an issued operation, with the host's list written as a field
update. -/
theorem stepRunsDecodedOperation : Obligations.StepRunsDecodedOperation := by
  intro s w rest hhost
  rw [step_operation hhost, State.setHost_eq]

end Sys2Proof.Machine
end

section
/-!
PROOF. What holds between operations (10_state R17 to R24): the shape in which a scan leaves the
buffer, and what a step can do to the buffer and the configuration.
-/

namespace Sys2Proof.Machine

/-! ### The waiting shape (R18) -/

theorem waiting_iff (buf : Bytes) :
    waiting buf = true ↔ buf = [] ∨ (buf.head? = some Config.stx ∧
      (buf.length < Config.hdrLen ∨ buf.length < requiredLength buf)) := by
  simp [waiting]

/-- A buffer that waits has room for one more byte (R17). -/
theorem length_le_of_waiting {buf : Bytes} (h : waiting buf = true) : buf.length ≤ 261 := by
  have hneed := (requiredLength_bounds buf).2
  rcases (waiting_iff buf).mp h with rfl | ⟨-, hlen | hlen⟩
  · simp
  · simp only [Config.hdrLen] at hlen; omega
  · omega

/-- The resync step leaves the waiting shape where too few bytes remain (R70, R72). -/
theorem waiting_resync {buf : Bytes} (h : (resync buf).length < Config.hdrLen ∨
    (resync buf).length < requiredLength (resync buf)) : waiting (resync buf) = true :=
  (waiting_iff _).mpr ((resync_head buf).imp_right fun hhead => ⟨hhead, h⟩)

/-! ### How a scan ends -/

/-- The two ways the scan of a buffer can end: it waits for more bytes (R18), and then a block that
does not drain has emitted nothing; or such a block leaves at its first frame and keeps
what followed it (R19). -/
def ScanEnd (drain : Bool) (buf : Bytes) (r : List Bytes × Bytes) : Prop :=
  (waiting r.2 = true ∧ (drain = false → r.1 = [])) ∨
    (drain = false ∧ ∃ f dropped, r.1 = [f] ∧ 7 ≤ f.length ∧ buf = dropped ++ f ++ r.2)

/-- Bytes dropped in front of a buffer do not change how its scan ends. -/
theorem ScanEnd.of_suffix {drain : Bool} {buf buf' : Bytes} {r : List Bytes × Bytes}
    (h : ScanEnd drain buf' r) (hsuf : buf' <:+ buf) : ScanEnd drain buf r := by
  obtain ⟨front, rfl⟩ := hsuf
  refine h.imp_right fun ⟨hsingle, f, dropped, hf, hlen, heq⟩ => ?_
  exact ⟨hsingle, f, front ++ dropped, hf, hlen, by simp [heq]⟩

/-- With draining a scan ends only by waiting, so what it emitted does not matter. -/
theorem scanEnd_true {buf : Bytes} {r : List Bytes × Bytes} :
    ScanEnd true buf r ↔ waiting r.2 = true := by
  simp [ScanEnd]

/-- With more passes than bytes the scan reaches a real exit: each pass that goes on has removed at
least one byte (R76). -/
theorem scanPasses_end {drain : Bool} {fuel : Nat} {buf : Bytes} (hfuel : buf.length < fuel) :
    ScanEnd drain buf (scanPasses Config.hdrLen drain fuel buf) := by
  induction fuel generalizing buf with
  | zero => omega
  | succ fuel ih =>
    have hsuf := resync_suffix buf
    have hle := resync_length_le buf
    have hneed := (requiredLength_bounds (resync buf)).1
    have hshorter : ∀ n, 1 ≤ n → requiredLength (resync buf) ≤ (resync buf).length →
        ((resync buf).drop n).length < fuel := by
      intro n hn hfull
      rw [List.length_drop]; omega
    rcases scanPasses_cases Config.hdrLen drain fuel buf with
      ⟨hwait, heq⟩ | ⟨-, hfull, -, heq⟩ | ⟨-, hfull, -, heq⟩ <;> rw [heq]
    case inl => exact .inl ⟨waiting_resync hwait, fun _ => rfl⟩
    case inr.inl =>
      cases drain with
      | false =>
        refine ScanEnd.of_suffix (buf' := resync buf) (.inr ⟨rfl, _, [], rfl, ?_, by simp⟩) hsuf
        rw [List.length_take]; omega
      | true =>
        have hrest := ih (hshorter (requiredLength (resync buf)) (by omega) hfull)
        rw [scanEnd_true] at hrest ⊢
        exact hrest
    case inr.inr =>
      exact (ih (hshorter 1 le_rfl hfull)).of_suffix ((List.drop_suffix 1 _).trans hsuf)

theorem pushScan_end (b : Byte) (s : State) :
    ScanEnd s.config.drainOnEmit (s.buf ++ [b]) (pushScan b s) :=
  scanPasses_end (Nat.lt_succ_self _)

/-- With draining a PUSH leaves a buffer that waits, whatever the buffer was before (R18). -/
theorem waiting_pushScan {s : State} (hdrain : s.config.drainOnEmit = true) (b : Byte) :
    waiting (pushScan b s).2 = true :=
  scanEnd_true.mp (hdrain ▸ pushScan_end b s)

/-- A PUSH into a buffer within the bound leaves it within the bound: a buffer that waits is, and a
frame emitted took at least seven bytes away (R17). -/
theorem pushScan_length_le {s : State} (h : s.buf.length ≤ 261) (b : Byte) :
    (pushScan b s).2.length ≤ 261 := by
  rcases pushScan_end b s with ⟨hwait, -⟩ | ⟨-, f, dropped, -, hlen, heq⟩
  · exact length_le_of_waiting hwait
  · have hsum := congrArg List.length heq
    simp only [List.length_append, List.length_singleton] at hsum
    omega

/-! ### What a step can do -/

/-- What an operation can do to the configuration and the buffer: it never writes the first; it
leaves the second, empties it, or leaves in it what the scan of a PUSH left. -/
theorem exec_config_buf_cases {i : Instr} {s t : State} (h : exec i s = .next t) :
    t.config = s.config ∧
      (t.buf = s.buf ∨ t.buf = [] ∨ ∃ b, t.buf = (pushScan b s).2) := by
  cases i with
  | clear => rw [exec_clear] at h; cases h; exact ⟨rfl, .inr (.inl rfl)⟩
  | push b => rw [exec_push] at h; cases h; exact ⟨rfl, .inr (.inr ⟨b, rfl⟩)⟩
  | encode a c p => rw [exec_encode] at h; cases h; exact ⟨rfl, .inl rfl⟩
  | verify x => rw [exec_verify] at h; cases h; exact ⟨rfl, .inl rfl⟩

/-- The same of a step: a reset empties the buffer too, and an idle host changes nothing. -/
theorem step_config_buf_cases {s t : State} (h : step s = .next t) :
    t.config = s.config ∧
      (t.buf = s.buf ∨ t.buf = [] ∨ ∃ b, t.buf = (pushScan b s).2) := by
  rcases hhost : s.host with _ | ⟨w | _, rest⟩
  case nil => rw [step_idle hhost] at h; cases h; exact ⟨rfl, .inl rfl⟩
  case cons.operation =>
    rw [step_operation hhost] at h
    exact exec_config_buf_cases (s := s.setHost rest) h
  case cons.reset => rw [step_reset hhost] at h; cases h; exact ⟨rfl, .inr (.inl rfl)⟩

theorem step_buf_length_le {s t : State} (hs : s.buf.length ≤ 261) (h : step s = .next t) :
    t.buf.length ≤ 261 := by
  obtain ⟨-, hbuf | hbuf | ⟨b, hbuf⟩⟩ := step_config_buf_cases h <;> rw [hbuf]
  · exact hs
  · simp
  · exact pushScan_length_le hs b

theorem resetFor_inv (p : Config.Params) : (State.resetFor p).inv :=
  ⟨by simp [State.bounded, Config.bufCap], fun _ => rfl⟩

/-! ### The obligations -/

/-- Settles O39: by what a step can do to the buffer, PUSH being the one case that can add a byte. -/
theorem stepKeepsBufferBound : Obligations.StepKeepsBufferBound := by
  intro s hs
  refine ⟨fun t h => step_buf_length_le hs h, fun b => ?_⟩
  simp only [appendTail, List.length_append, List.length_singleton]
  omega

/-- Settles O40: the bound is O39's, and a draining block's PUSH leaves the waiting shape. -/
theorem stepKeepsInvariant : Obligations.StepKeepsInvariant := by
  rintro s t ⟨hbound, hshape⟩ h
  obtain ⟨hconfig, hbuf⟩ := step_config_buf_cases h
  refine ⟨Nat.lt_succ_of_le (step_buf_length_le (Nat.le_of_lt_succ hbound) h), fun hdrain => ?_⟩
  rw [hconfig] at hdrain
  rcases hbuf with hbuf | hbuf | ⟨b, hbuf⟩ <;> rw [hbuf]
  · exact hshape hdrain
  · rfl
  · exact waiting_pushScan hdrain b

/-- Settles O41: the waiting shape a draining scan ends in, spelled out. -/
theorem drainingPushLeavesWaitingBuffer : Obligations.DrainingPushLeavesWaitingBuffer :=
  fun b s hdrain => ⟨afterPush b s, exec_push b s, (waiting_iff _).mp (waiting_pushScan hdrain b)⟩

/-- Settles O42: the two ways a scan can end are the two cases of the statement. -/
theorem singleEmitPushKeepsRemainder : Obligations.SingleEmitPushKeepsRemainder := by
  intro b s hdrain
  refine ⟨afterPush b s, _, exec_push b s, afterPush_results b s, ?_⟩
  rw [afterPush_buf]
  rcases pushScan_end b s with ⟨hwait, hsilent⟩ | ⟨-, f, dropped, hf, -, heq⟩
  · exact .inr ⟨by simp [hsilent hdrain], hwait⟩
  · exact .inl ⟨f, dropped, by simp [hf], heq⟩

/-- Settles O1: the fields of the reset state. -/
theorem resetLeavesEmptyBuffer : Obligations.ResetLeavesEmptyBuffer :=
  ⟨State.reset_buf, fun p => ⟨State.resetFor_buf p, State.resetFor_config p⟩⟩

/-- Settles O2: `State.reset` is the reset state for one value of the parameter. -/
theorem resetMeetsInvariant : Obligations.ResetMeetsInvariant :=
  ⟨resetFor_inv _, resetFor_inv⟩

/-- Settles O12: by what a step can do to the configuration. -/
theorem stepKeepsConfiguration : Obligations.StepKeepsConfiguration :=
  fun _ _ h => (step_config_buf_cases h).1

/-- Settles O13: each operation's buffer and result are given by its operands, the buffer and the
parameter alone. -/
theorem resultsAreNeverRead : Obligations.ResultsAreNeverRead := by
  intro i s rs hs
  cases i with
  | clear => exact ⟨_, _, resultOk, exec_clear _, exec_clear _, rfl, rfl, rfl, rfl⟩
  | push b =>
    exact ⟨_, _, resultFrames ((pushScan b s).1.map emittedFrame), exec_push b _, exec_push b _,
      rfl, rfl, rfl, rfl⟩
  | encode a c p =>
    exact ⟨_, _, (encodeFrame a c p).elim resultTooLong resultFrame, exec_encode a c p _,
      exec_encode a c p _, rfl, rfl, rfl, rfl⟩
  | verify x =>
    exact ⟨_, _, resultValid (verifyFrame x), exec_verify x _, exec_verify x _, rfl, rfl, rfl, rfl⟩

end Sys2Proof.Machine
end

section
/-!
PROOF. A program as the host issues it (20_memory R35, 30_encoding R52): each step takes off the
first operation, and no operation looks at the ones still to come.
-/

namespace Sys2Proof

/-- The operation map reads back every operation from its own encoding (R48). -/
@[simp] theorem decode_encode_instr (i : Instr) : decode (encode i) = i := by
  cases i with
  | clear => exact decode_clear _
  | push b => exact decode_push _
  | encode a c p => exact decode_encode _
  | verify x => exact decode_verify _

end Sys2Proof

namespace Sys2Proof.Machine

@[simp] theorem assemble_nil : assemble [] = [] := rfl

@[simp] theorem assemble_cons (i : Instr) (prog : List Instr) :
    assemble (i :: prog) = .operation (encode i) :: assemble prog := rfl

theorem execAll_cons_of_exec {i : Instr} {prog : List Instr} {s t : State}
    (h : exec i s = .next t) : execAll (i :: prog) s = execAll prog t := by
  rw [execAll, h]

theorem steps_succ_of_step {k : Nat} {s t : State} (h : step s = .next t) :
    steps (k + 1) s = steps k t := by
  rw [steps, h]

/-- An operation has one next state, and the host's list it is given comes back in that state
unchanged. -/
theorem exec_setHost_next (i : Instr) (s : State) :
    ∃ t : State, ∀ h, exec i (s.setHost h) = .next (t.setHost h) := by
  obtain ⟨t, ht, -⟩ := exec_setHost i s []
  refine ⟨t, fun h => ?_⟩
  obtain ⟨u, hu, hset⟩ := exec_setHost i s h
  obtain rfl : t = u := Host.Outcome.next.inj (ht.symm.trans hu)
  exact hset

/-- A step at an encoded operation carries that operation out. -/
theorem step_setHost_encode (i : Instr) (s : State) (rest : List HostEvent) :
    step (s.setHost (.operation (encode i) :: rest)) = exec i (s.setHost rest) := by
  rw [step_operation (State.setHost_host s _), decode_encode_instr, State.setHost_setHost]

/-- The steps over an issued program are its operations in order: by induction on the program, the
operation at its head leading to the same state whether or not the others are still to come. -/
theorem steps_setHost_assemble (prog : List Instr) (s : State) (rest : List HostEvent) :
    steps prog.length (s.setHost (assemble prog ++ rest)) = execAll prog (s.setHost rest) := by
  induction prog generalizing s with
  | nil => rfl
  | cons i prog ih =>
    obtain ⟨t, hexec⟩ := exec_setHost_next i s
    have hstep : step (s.setHost (assemble (i :: prog) ++ rest)) =
        .next (t.setHost (assemble prog ++ rest)) :=
      (step_setHost_encode i s _).trans (hexec _)
    calc steps (prog.length + 1) (s.setHost (assemble (i :: prog) ++ rest))
        = steps prog.length (t.setHost (assemble prog ++ rest)) := steps_succ_of_step hstep
      _ = execAll prog (t.setHost rest) := ih t
      _ = execAll (i :: prog) (s.setHost rest) := (execAll_cons_of_exec (hexec rest)).symm

/-- Settles O8: the steps over an issued program, from the state whose host list it fills. -/
theorem programRunsInIssueOrder : Obligations.ProgramRunsInIssueOrder := by
  intro prog s rest hhost
  have hs : s = s.setHost (assemble prog ++ rest) := by rw [← hhost, State.setHost_eq]
  rw [← State.setHost_eq, ← steps_setHost_assemble, ← hs]

end Sys2Proof.Machine
end

section
/-!
PROOF. The operation map both ways (30_encoding R47, R48), and that no event of the host stops the
block (R49, 60_exceptions R86 to R88).
-/

namespace Sys2Proof

/-- The two bits of an operation word give the operation map's four rows and no other (R49). -/
theorem opWord_cases (o : OpWord) : o = 0b00 ∨ o = 0b01 ∨ o = 0b10 ∨ o = 0b11 := by
  revert o; decide

/-- A well-formed issue leaves every port idle that its operation word does not use (R47). -/
theorem wellFormed_issue_iff (w : Issue) :
    w.wellFormed = true ↔ (w.op = 0b01 ∨ w.ports.byteIn = 0) ∧
      (w.op = 0b10 ∨ (w.ports.addrIn = 0 ∧ w.ports.cmdIn = 0 ∧ w.ports.payloadIn = [])) ∧
      (w.op = 0b11 ∨ w.ports.candIn = []) := by
  simp [Issue.wellFormed, Ports.byteInIdle, Ports.frameInIdle, Ports.candInIdle, and_assoc]

/-- A well-formed issue of an operation is the operation's own encoding: the ports it uses carry the
operands, and the ports it ignores are idle in both (R47). -/
theorem encode_decode_of_wellFormed {w : Issue} (h : w.wellFormed = true) :
    encode (decode w) = w := by
  rw [wellFormed_issue_iff] at h
  obtain ⟨op, ⟨byteIn, addrIn, cmdIn, payloadIn, candIn⟩⟩ := w
  rcases opWord_cases op with rfl | rfl | rfl | rfl
  · obtain ⟨rfl, ⟨rfl, rfl, rfl⟩, rfl⟩ := by simpa using h
    rfl
  · obtain ⟨⟨rfl, rfl, rfl⟩, rfl⟩ := by simpa using h
    rfl
  · obtain ⟨rfl, rfl⟩ := by simpa using h
    rfl
  · obtain ⟨rfl, rfl, rfl, rfl⟩ := by simpa using h
    rfl

end Sys2Proof

namespace Sys2Proof.Machine

/-- Every operation completes. -/
theorem exec_next (i : Instr) (s : State) : ∃ t, exec i s = .next t := by
  obtain ⟨t, ht, -⟩ := exec_setHost i s []
  exact ⟨t, ht⟩

/-- Settles O6: the decoder's answer for each of the four words. -/
theorem operationMapDecodes : Obligations.OperationMapDecodes :=
  fun p => ⟨decode_clear p, decode_push p, decode_encode p, decode_verify p⟩

/-- Settles O7: the operation map read in both directions. -/
theorem decodeEncodeAgree : Obligations.DecodeEncodeAgree :=
  ⟨decode_encode_instr, fun _ => encode_decode_of_wellFormed⟩

/-- Settles O11: by what the host does next. -/
theorem everyStepAnswersNext : Obligations.EveryStepAnswersNext := by
  intro s
  rcases hhost : s.host with _ | ⟨w | _, rest⟩
  case nil => exact ⟨s, step_idle hhost⟩
  case cons.operation => rw [step_operation hhost]; exact exec_next _ _
  case cons.reset => exact ⟨_, step_reset hhost⟩

end Sys2Proof.Machine
end

section
/-!
PROOF. The wire frame byte by byte (30_encoding R39 to R42): header, payload and footer, what an
accepted candidate looks like, and why its fields determine it (R45).
-/

namespace Sys2Proof.Machine

/-- A four-byte header, the payload and a three-byte footer, with any value at each place (R39). -/
def frameLayout (x a c l : Byte) (p : Bytes) (e k r : Byte) : Bytes :=
  [x, a, c, l] ++ p ++ [e, k, r]

section
variable (x a c l : Byte) (p : Bytes) (e k r : Byte)

@[simp] theorem frameLayout_length : (frameLayout x a c l p e k r).length = p.length + 7 := by
  simp [frameLayout]

@[simp] theorem frameLayout_getElem?_zero : (frameLayout x a c l p e k r)[0]? = some x := rfl
@[simp] theorem frameLayout_getElem?_one : (frameLayout x a c l p e k r)[1]? = some a := rfl
@[simp] theorem frameLayout_getElem?_two : (frameLayout x a c l p e k r)[2]? = some c := rfl
@[simp] theorem frameLayout_getElem?_three : (frameLayout x a c l p e k r)[3]? = some l := rfl

/-- From offset 4 on stand the payload and the footer. -/
theorem frameLayout_getElem?_add_four (i : Nat) :
    (frameLayout x a c l p e k r)[4 + i]? = (p ++ [e, k, r])[i]? := by
  rw [frameLayout, List.append_assoc, List.getElem?_append_right (by simp)]
  simp

theorem frameLayout_getElem?_payload {i : Nat} (h : i < p.length) :
    (frameLayout x a c l p e k r)[4 + i]? = p[i]? := by
  rw [frameLayout_getElem?_add_four, List.getElem?_append_left h]

/-- The footer starts where the payload ends. -/
theorem frameLayout_getElem?_footer (j : Nat) :
    (frameLayout x a c l p e k r)[4 + p.length + j]? = [e, k, r][j]? := by
  rw [Nat.add_assoc, frameLayout_getElem?_add_four, List.getElem?_append_right (by simp)]
  simp

@[simp] theorem frameLayout_etx : (frameLayout x a c l p e k r)[4 + p.length]? = some e :=
  frameLayout_getElem?_footer x a c l p e k r 0

@[simp] theorem frameLayout_checksum : (frameLayout x a c l p e k r)[5 + p.length]? = some k := by
  rw [show 5 + p.length = 4 + p.length + 1 by omega, frameLayout_getElem?_footer]; rfl

@[simp] theorem frameLayout_cr : (frameLayout x a c l p e k r)[6 + p.length]? = some r := by
  rw [show 6 + p.length = 4 + p.length + 2 by omega, frameLayout_getElem?_footer]; rfl

/-- The bytes before the checksum run from the first byte through the end marker (R42). -/
@[simp] theorem frameLayout_take_checked :
    (frameLayout x a c l p e k r).take (5 + p.length) = [x, a, c, l] ++ p ++ [e] := by
  rw [frameLayout, show [e, k, r] = [e] ++ [k, r] from rfl, ← List.append_assoc]
  exact List.take_left' (by simp; omega)

@[simp] theorem declaredLength_frameLayout :
    declaredLength (frameLayout x a c l p e k r) = l.toNat := rfl

@[simp] theorem addressOf_frameLayout : addressOf (frameLayout x a c l p e k r) = a := rfl
@[simp] theorem commandOf_frameLayout : commandOf (frameLayout x a c l p e k r) = c := rfl

end

/-- Where the length byte counts the payload, the payload field is the payload (R45). -/
theorem payloadOf_frameLayout {l : Byte} {p : Bytes} (x a c e k r : Byte)
    (hl : p.length = l.toNat) : payloadOf (frameLayout x a c l p e k r) = p := by
  rw [payloadOf, declaredLength_frameLayout, slice, ← hl, frameLayout,
    List.take_left' (by simp; omega)]
  rfl

/-- The frame ENCODE builds, in the layout's order (R58). -/
theorem encodeFrame_eq_frameLayout {a c : Byte} {p : Bytes} (h : p.length ≤ 255) :
    encodeFrame a c p = some (frameLayout Config.stx a c (BitVec.ofNat 8 p.length) p
      Config.etx (sum8 (checkedPart a c p)) Config.cr) := by
  rw [encodeFrame_eq_some h, checkedPart, frameLayout, List.append_assoc _ [_]]
  rfl

/-- A sequence that has the length it declares is laid out as a frame, whatever its other bytes. -/
theorem exists_frameLayout {f : Bytes} (hn : f.length = requiredLength f) :
    ∃ x a c l p e k r, f = frameLayout x a c l p e k r ∧ p.length = l.toNat := by
  have h7 := (requiredLength_bounds f).1
  match f, hn, h7 with
  | x :: a :: c :: l :: body, hn, h7 =>
    have hbody : body.length = l.toNat + 3 := by
      simpa [requiredLength, declaredLength, byteAt, Config.frameOverhead] using hn
    obtain ⟨e, k, r, hfoot⟩ := List.length_eq_three.mp
      (show (body.drop l.toNat).length = 3 by simp [hbody])
    refine ⟨x, a, c, l, body.take l.toNat, e, k, r, ?_, by simp [hbody]⟩
    rw [frameLayout, ← hfoot]
    simp

/-- What VERIFY tests of a sequence laid out as a frame: the end marker, the checksum over the bytes
before it, and the terminator (R59). -/
theorem verifyFrame_frameLayout_iff {l : Byte} {p : Bytes} (x a c e k r : Byte)
    (hl : p.length = l.toNat) :
    verifyFrame (frameLayout x a c l p e k r) = true ↔
      e = Config.etx ∧ r = Config.cr ∧ k = sum8 ([x, a, c, l] ++ p ++ [e]) := by
  have hetx : p.length + 7 - 3 = 4 + p.length := by omega
  have hcr : p.length + 7 - 1 = 6 + p.length := by omega
  have hsum : p.length + 7 - 2 = 5 + p.length := by omega
  rw [verifyFrame_iff, frameLayout_length, hetx, hcr, hsum,
    byteAt_of_getElem? (frameLayout_etx ..), byteAt_of_getElem? (frameLayout_cr ..),
    byteAt_of_getElem? (frameLayout_checksum ..), frameLayout_take_checked]
  simp [requiredLength, Config.frameOverhead, hl]

/-- Settles O17: the layout of the frame ENCODE builds, read at each offset. -/
theorem encodedFrameLayout : Obligations.EncodedFrameLayout := by
  refine ⟨fun a c p => encodeFrame_eq_none, fun a c p hp => ⟨_, encodeFrame_eq_frameLayout hp,
    frameLayout_length .., rfl, rfl, rfl, ⟨_, rfl, ?_⟩,
    fun i hi => frameLayout_getElem?_payload (h := hi) .., frameLayout_etx .., ?_,
    frameLayout_cr ..⟩⟩
  · rw [BitVec.toNat_ofNat]; exact Nat.mod_eq_of_lt (by omega)
  · rw [frameLayout_checksum, frameLayout_take_checked]; rfl

/-- Settles O23: VERIFY fixes the footer of an accepted candidate, the premise its first byte, and
the length it declares fixes its length byte; the rest are the fields. -/
theorem fieldsDetermineFrame : Obligations.FieldsDetermineFrame := by
  intro f hv hstx
  obtain ⟨-, hn, -⟩ := (verifyFrame_iff f).mp hv
  obtain ⟨x, a, c, l, p, e, k, r, rfl, hl⟩ := exists_frameLayout hn
  obtain ⟨rfl, rfl, rfl⟩ := (verifyFrame_frameLayout_iff x a c e k r hl).mp hv
  obtain rfl : x = Config.stx := Option.some.inj hstx
  have hp : p.length ≤ 255 := by have := l.isLt; omega
  have hlen : BitVec.ofNat 8 p.length = l := by rw [hl, BitVec.ofNat_toNat, BitVec.setWidth_eq]
  rw [addressOf_frameLayout, commandOf_frameLayout, payloadOf_frameLayout _ _ _ _ _ _ hl,
    encodeFrame_eq_frameLayout hp, checkedPart, hlen]

end Sys2Proof.Machine
end

section
/-!
PROOF. The result port (30_encoding R56): which fields each operation's result carries.
-/

namespace Sys2Proof.Machine

/-- The result an operation returns in a state: of the state, only PUSH reads anything. -/
def resultOf (s : State) : Instr → Result
  | .clear => resultOk
  | .push b => resultFrames ((pushScan b s).1.map emittedFrame)
  | .encode a c p => (encodeFrame a c p).elim resultTooLong resultFrame
  | .verify x => resultValid (verifyFrame x)

/-- Every operation adds its one result to those returned and keeps the configuration and the
host's events. -/
theorem exec_returns_resultOf (i : Instr) (s : State) :
    ∃ t, exec i s = .next t ∧ t.results = s.results ++ [resultOf s i] ∧
      t.config = s.config ∧ t.host = s.host := by
  cases i with
  | clear => exact ⟨_, exec_clear s, rfl, rfl, rfl⟩
  | push b => exact ⟨_, exec_push b s, rfl, rfl, rfl⟩
  | encode a c p => exact ⟨_, exec_encode a c p s, rfl, rfl, rfl⟩
  | verify x => exact ⟨_, exec_verify x s, rfl, rfl, rfl⟩

/-- ENCODE's result holds the frame where there is one, its status is OK exactly then (R85, R86),
and it has neither of the fields of VERIFY and PUSH. -/
theorem resultOf_encode_fields (a c : Byte) (p : Bytes) (s : State) :
    (resultOf s (.encode a c p)).frameOut = encodeFrame a c p ∧
      ((resultOf s (.encode a c p)).status = .ok ↔ (encodeFrame a c p).isSome = true) ∧
      (resultOf s (.encode a c p)).valid = none ∧ (resultOf s (.encode a c p)).frames = none := by
  cases h : encodeFrame a c p <;> simp [resultOf, h, resultTooLong, resultFrame, resultOk]

/-- An encoded frame has 7 to 262 bytes (R40). -/
theorem encodeFrame_length {a c : Byte} {p f : Bytes} (h : encodeFrame a c p = some f) :
    7 ≤ f.length ∧ f.length ≤ 262 := by
  rcases Nat.lt_or_ge 255 p.length with hp | hp
  · simp [encodeFrame_eq_none hp] at h
  · obtain rfl := Option.some.inj ((encodeFrame_eq_frameLayout hp).symm.trans h)
    rw [frameLayout_length]; omega

/-- `frame_out` is present exactly for ENCODE with status OK. -/
theorem resultOf_frameOut_isSome_iff (s : State) (i : Instr) :
    (resultOf s i).frameOut.isSome = true ↔
      (∃ a c p, i = .encode a c p) ∧ (resultOf s i).status = .ok := by
  cases i with
  | encode a c p => simp [resultOf_encode_fields]
  | clear | push b | verify x =>
    simp [resultOf, resultOk, resultFrames, resultValid]

/-- Any frame returned is one that ENCODE built. -/
theorem resultOf_frameOut_length {s : State} {i : Instr} {f : Bytes}
    (h : (resultOf s i).frameOut = some f) : 7 ≤ f.length ∧ f.length ≤ 262 := by
  have hsome : (resultOf s i).frameOut.isSome = true := by rw [h]; rfl
  obtain ⟨⟨a, c, p, rfl⟩, -⟩ := (resultOf_frameOut_isSome_iff s i).mp hsome
  obtain ⟨hframe, -⟩ := resultOf_encode_fields a c p s
  exact encodeFrame_length (hframe.symm.trans h)

/-- `valid` is present exactly for VERIFY. -/
theorem resultOf_valid_isSome_iff (s : State) (i : Instr) :
    (resultOf s i).valid.isSome = true ↔ ∃ x, i = .verify x := by
  cases i with
  | encode a c p => simp [resultOf_encode_fields]
  | clear | push b | verify x =>
    simp [resultOf, resultOk, resultFrames, resultValid]

/-- `frames` is present exactly for PUSH. -/
theorem resultOf_frames_isSome_iff (s : State) (i : Instr) :
    (resultOf s i).frames.isSome = true ↔ ∃ b, i = .push b := by
  cases i with
  | encode a c p => simp [resultOf_encode_fields]
  | clear | push b | verify x =>
    simp [resultOf, resultOk, resultFrames, resultValid]

/-- Settles O9: by the fields of the one result each operation returns. -/
theorem eachOperationReturnsItsResult : Obligations.EachOperationReturnsItsResult := by
  intro i s
  obtain ⟨t, hexec, hresults, hconfig, hhost⟩ := exec_returns_resultOf i s
  refine ⟨t, resultOf s i, hexec, hresults, hconfig, hhost, ?_, resultOf_frameOut_isSome_iff s i,
    fun f => resultOf_frameOut_length, resultOf_valid_isSome_iff s i,
    resultOf_frames_isSome_iff s i⟩
  rintro rfl; rfl

end Sys2Proof.Machine
end

section
/-!
PROOF. The pseudo-operation PUSHS (30_encoding R53): the results of its PUSHes one by one, and the
issued expansion run step by step.
-/

namespace Sys2Proof.Machine

/-- The results of the PUSHes of a byte sequence, in order: one for each byte. -/
def pushsResults : Bytes → State → List Result
  | [], _ => []
  | b :: bs, s => resultOf s (.push b) :: pushsResults bs (afterPush b s)

@[simp] theorem pushsResults_nil (s : State) : pushsResults [] s = [] := rfl
@[simp] theorem pushsResults_cons (b : Byte) (bs : Bytes) (s : State) :
    pushsResults (b :: bs) s = resultOf s (.push b) :: pushsResults bs (afterPush b s) := rfl

@[simp] theorem pushsResults_length (bs : Bytes) (s : State) :
    (pushsResults bs s).length = bs.length := by
  induction bs generalizing s with
  | nil => rfl
  | cons b bs ih => simp [ih]

/-- PUSHS adds its PUSHes' results to those returned. -/
theorem afterPushs_results (bs : Bytes) (s : State) :
    (afterPushs bs s).results = s.results ++ pushsResults bs s := by
  induction bs generalizing s with
  | nil => simp
  | cons b bs ih => simp [ih, resultOf]

/-- The k-th result is that of the PUSH of byte k in the state the earlier ones left. -/
theorem pushsResults_getElem? {bs : Bytes} {k : Nat} {b : Byte} (s : State) (h : bs[k]? = some b) :
    (pushsResults bs s)[k]? = some (resultOf (afterPushs (bs.take k) s) (.push b)) := by
  induction bs generalizing k s with
  | nil => simp at h
  | cons b' bs ih =>
    cases k with
    | zero =>
      obtain rfl : b' = b := by simpa using h
      rfl
    | succ k => exact ih (afterPush b' s) (by simpa using h)

/-- Each result is a PUSH's: status OK and a frame list (R88). -/
theorem status_frames_of_mem_pushsResults {bs : Bytes} {s : State} {r : Result}
    (h : r ∈ pushsResults bs s) : r.status = .ok ∧ r.frames.isSome = true := by
  induction bs generalizing s with
  | nil => simp at h
  | cons b bs ih =>
    rcases List.mem_cons.mp h with rfl | h
    · exact ⟨rfl, rfl⟩
    · exact ih h

/-- The records of those results, concatenated, are the records of PUSHS. -/
theorem emittedFrames_pushsResults (bs : Bytes) (s : State) :
    emittedFrames (pushsResults bs s) = pushsFrames bs s := by
  induction bs generalizing s with
  | nil => rfl
  | cons b bs ih => exact congrArg (_ ++ ·) (ih (afterPush b s))

/-- PUSHS does not look at the host's events. -/
theorem pushsResults_setHost (bs : Bytes) (s : State) (h : List HostEvent) :
    pushsResults bs (s.setHost h) = pushsResults bs s := by
  induction bs generalizing s with
  | nil => rfl
  | cons b bs ih => exact congrArg (_ :: ·) (ih (afterPush b s))

/-- The PUSHes of a sequence carried out in order. -/
theorem execAll_expandPushs (bs : Bytes) (s : State) :
    execAll (expandPushs bs) s = .next (afterPushs bs s) := by
  induction bs generalizing s with
  | nil => rfl
  | cons b bs ih => exact (execAll_cons_of_exec (exec_push b s)).trans (ih _)

/-- Settles O38: the expansion is a program (O8), and its PUSHes' results are counted one by one. -/
theorem pushsExpandsToPushes : Obligations.PushsExpandsToPushes := by
  intro bs s rest hhost
  have hsteps := programRunsInIssueOrder (expandPushs bs) s rest hhost
  rw [execAll_expandPushs, expandPushs, List.length_map] at hsteps
  refine ⟨pushsResults bs s, hsteps, execAll_expandPushs bs _, ?_, pushsResults_length bs s,
    fun r => status_frames_of_mem_pushsResults, fun k b hk => ?_, ?_⟩
  · rw [← State.setHost_eq, afterPushs_results, pushsResults_setHost, State.setHost_results]
  · exact ⟨_, exec_push b _, _, pushsResults_getElem? s hk, rfl⟩
  · rw [emittedFrames_pushsResults]; rfl

end Sys2Proof.Machine
end

section
/-!
PROOF. The frame codec (40_frame_codec R57 to R66): the checksum and what a substitution does to it,
ENCODE and VERIFY as functions of their operands, and which changes of an accepted candidate VERIFY
sees.
-/

namespace Sys2Proof.Machine

/-! ### The checksum (R57) -/

theorem sum8_toNat (s : Bytes) : (sum8 s).toNat = (s.map BitVec.toNat).sum % 256 :=
  BitVec.toNat_ofNat _ 8

/-- An 8-bit accumulator that wraps ends at its start value plus the checksum. -/
theorem foldl_add_eq_add_sum8 (s : Bytes) (acc : Byte) :
    s.foldl (fun acc b => acc + b) acc = acc + sum8 s := by
  induction s generalizing acc with
  | nil => simp
  | cons b s ih => rw [List.foldl_cons, ih, sum8_cons, BitVec.add_assoc]

/-- A substitution among the first `n` bytes changes their checksum by the difference of the two
bytes. -/
theorem sum8_take_set {s : Bytes} {i n : Nat} (v : Byte) (hn : i < n) (h : i < s.length) :
    sum8 ((s.set i v).take n) + byteAt s i = sum8 (s.take n) + v := by
  rw [List.take_set, ← byteAt_take s n i hn]
  exact sum8_set v (by simp [hn, h])

/-- Settles O14: the accumulator starts at 0. -/
theorem checksumIsSumModulo256 : Obligations.ChecksumIsSumModulo256 := by
  refine ⟨sum8_nil, fun s => ⟨sum8_toNat s, ?_⟩⟩
  rw [foldl_add_eq_add_sum8, zero_add]

/-! ### ENCODE and VERIFY as functions of their operands (R58, R59, R65) -/

/-- VERIFY returns what its predicate says. -/
theorem exec_verify_of_eq {x : Bytes} {v : Bool} (h : verifyFrame x = v) (s : State) :
    exec (.verify x) s = .next (s.returnResult (resultValid v)) := by
  rw [exec_verify, h]

/-- ENCODE returns the frame where there is one. -/
theorem exec_encode_of_eq_some {a c : Byte} {p f : Bytes} (h : encodeFrame a c p = some f)
    (s : State) : exec (.encode a c p) s = .next (s.returnResult (resultFrame f)) := by
  rw [exec_encode, h, Option.elim_some]

/-- Where there is a length byte, the sequence has the length it declares exactly if that byte
says so. -/
theorem length_eq_requiredLength_iff {x : Bytes} (h : 3 < x.length) :
    x.length = requiredLength x ↔ ∃ l : Byte, x[3]? = some l ∧ x.length = l.toNat + 7 := by
  have hbyte : x[3]? = some (byteAt x 3) := (byteAt_eq_iff h).mp rfl
  simp [hbyte, requiredLength, declaredLength, Config.frameOverhead]

/-- Settles O15: on the two sides of the payload bound. -/
theorem encodeReturnsFrame : Obligations.EncodeReturnsFrame := by
  refine fun a c p s => ⟨fun hp => exec_encode_of_eq_some (encodeFrame_eq_some hp) s, fun hp => ?_⟩
  rw [exec_encode, encodeFrame_eq_none hp]
  rfl

/-- Settles O18: from seven bytes on, every byte tested exists. -/
theorem verifyTestsFiveConditions : Obligations.VerifyTestsFiveConditions := by
  refine fun x s => ⟨verifyFrame x, exec_verify x s, ?_⟩
  rw [verifyFrame_iff]
  refine and_congr_right fun h7 => ?_
  rw [length_eq_requiredLength_iff (by omega), byteAt_eq_iff (by omega), byteAt_eq_iff (by omega),
    byteAt_eq_iff (by omega)]
  rfl

/-- Settles O20: an accepted candidate has at most 262 bytes. -/
theorem longCandidateRejected : Obligations.LongCandidateRejected := by
  refine fun x s hlong => exec_verify_of_eq (Bool.eq_false_iff.mpr fun hv => ?_) s
  exact absurd (verifyFrame_length hv).2 (by omega)

/-- Settles O21: the results are those of `encodeFrame` and `verifyFrame`. -/
theorem codecIsPure : Obligations.CodecIsPure :=
  ⟨fun a c p => ⟨_, exec_encode a c p⟩, fun x => ⟨_, exec_verify x⟩⟩

/-! ### Encoded frames are accepted (R62) -/

/-- Only a payload of at most 255 bytes has an encoding (R58). -/
theorem payload_length_le_of_encodeFrame {a c : Byte} {p f : Bytes}
    (h : encodeFrame a c p = some f) : p.length ≤ 255 := by
  by_contra hp
  simp [encodeFrame_eq_none (Nat.lt_of_not_le hp)] at h

/-- The frame ENCODE builds is accepted, and its fields are the operands. -/
theorem verifyFrame_encodeFrame {a c : Byte} {p f : Bytes} (h : encodeFrame a c p = some f) :
    verifyFrame f = true ∧ addressOf f = a ∧ commandOf f = c ∧ payloadOf f = p := by
  have hp := payload_length_le_of_encodeFrame h
  obtain rfl := Option.some.inj ((encodeFrame_eq_frameLayout hp).symm.trans h)
  have hl : p.length = (BitVec.ofNat 8 p.length).toNat := by
    rw [BitVec.toNat_ofNat, Nat.mod_eq_of_lt (by omega)]
  exact ⟨(verifyFrame_frameLayout_iff _ _ _ _ _ _ hl).mpr ⟨rfl, rfl, rfl⟩,
    addressOf_frameLayout .., commandOf_frameLayout .., payloadOf_frameLayout _ _ _ _ _ _ hl⟩

/-- Settles O22: by what ENCODE builds below the payload bound. -/
theorem encodedFrameVerifiesAndDecodes : Obligations.EncodedFrameVerifiesAndDecodes := by
  intro a c p s hp
  have hf := encodeFrame_eq_some (a := a) (c := c) hp
  obtain ⟨hv, hfields⟩ := verifyFrame_encodeFrame hf
  exact ⟨_, exec_encode_of_eq_some hf s, exec_verify_of_eq hv s, hfields⟩

/-! ### A single substitution is detected (R63) -/

/-- One substituted byte spoils an accepted candidate: before the checksum it changes the sum and
not the byte it is compared with, at the checksum the byte and not the sum, and the last byte is
fixed. -/
theorem verifyFrame_set_eq_false {f : Bytes} {i : Nat} {b : Byte} (hf : verifyFrame f = true)
    (hi : i < f.length) (hb : byteAt f i ≠ b) : verifyFrame (f.set i b) = false := by
  refine Bool.eq_false_iff.mpr fun hg => hb ?_
  obtain ⟨h7, -, -, hcr, hsum⟩ := (verifyFrame_iff f).mp hf
  obtain ⟨-, -, -, hcr', hsum'⟩ := (verifyFrame_iff _).mp hg
  rw [List.length_set] at hcr' hsum'
  have hpos : i < f.length - 2 ∨ i = f.length - 2 ∨ i = f.length - 1 := by omega
  rcases hpos with hlt | rfl | rfl
  · have hchange := sum8_take_set b hlt hi
    rw [← hsum', byteAt_set_ne b hlt.ne, hsum] at hchange
    exact add_left_cancel hchange
  · rw [byteAt_set_self b hi, List.take_set_of_le le_rfl] at hsum'
    exact hsum.trans hsum'.symm
  · rw [byteAt_set_self b hi] at hcr'
    exact hcr.trans hcr'.symm

/-- Settles O25: an encoded frame is an accepted candidate. -/
theorem singleSubstitutionDetected : Obligations.SingleSubstitutionDetected := by
  intro a c p f i b s hf hi hb
  have hv := (verifyFrame_encodeFrame hf).1
  exact exec_verify_of_eq (verifyFrame_set_eq_false hv hi (mt (byteAt_eq_iff hi).mp hb)) s

/-! ### Changes that are not detected (R60, R64) -/

/-- A sequence that shares the length, the length byte, the end marker and the terminator with an
accepted candidate is accepted if its checksum is right. -/
theorem verifyFrame_of_same_framing {x y : Bytes} (hx : verifyFrame x = true)
    (hlen : y.length = x.length)
    (hframing : ∀ k, k = 3 ∨ k = x.length - 3 ∨ k = x.length - 1 → byteAt y k = byteAt x k)
    (hsum : byteAt y (x.length - 2) = sum8 (y.take (x.length - 2))) : verifyFrame y = true := by
  obtain ⟨h7, hneed, hetx, hcr, -⟩ := (verifyFrame_iff x).mp hx
  have hneed' : requiredLength y = requiredLength x :=
    congrArg (fun l : Byte => l.toNat + Config.frameOverhead) (hframing 3 (by simp))
  rw [verifyFrame_iff, hlen, hneed', hframing _ (by simp), hframing _ (by simp)]
  exact ⟨h7, hneed, hetx, hcr, hsum⟩

/-- Settles O19: neither the first byte nor the checksum is part of the framing. -/
theorem verifyIgnoresFirstByte : Obligations.VerifyIgnoresFirstByte := by
  intro x b hx
  have h7 := (verifyFrame_length hx).1
  refine verifyFrame_of_same_framing hx (by simp) (fun k hk => ?_) ?_
  · rw [byteAt_set_ne _ (by omega), byteAt_set_ne _ (by omega)]
  · rw [byteAt_set_self _ (by rw [List.length_set]; omega), List.take_set_of_le le_rfl]

/-- Settles O26: the two differences in the sum cancel, so the old checksum still fits. -/
theorem cancellingChangesAccepted : Obligations.CancellingChangesAccepted := by
  intro x i j b d hx hij hj hi hi3 hj3 hbd
  refine verifyFrame_of_same_framing hx (by simp) (fun k hk => ?_) ?_
  · rw [byteAt_set_ne _ (by omega), byteAt_set_ne _ (by omega)]
  · obtain ⟨-, -, -, -, hsum⟩ := (verifyFrame_iff x).mp hx
    have hfirst := sum8_take_set (s := x) (i := i) (n := x.length - 2) b (by omega) (by omega)
    have hsecond := sum8_take_set (s := x.set i b) (i := j) (n := x.length - 2) d (by omega)
      (by rw [List.length_set]; omega)
    have hbd : b + d = byteAt x i + byteAt x j := hbd
    rw [byteAt_set_ne b hij.ne] at hsecond
    rw [byteAt_set_ne d (by omega), byteAt_set_ne b (by omega), hsum]
    linear_combination -hfirst - hsecond - hbd

/-- Settles O24: the ACK frame, and R60's example: 0x05 in place of STX and the checksum mended. -/
theorem fieldsLeaveFirstByteOpen : Obligations.FieldsLeaveFirstByteOpen :=
  ⟨[0x02, 0x00, 0x30, 0x00, 0x03, 0x35, 0x0D], [0x05, 0x00, 0x30, 0x00, 0x03, 0x38, 0x0D],
    by decide⟩

end Sys2Proof.Machine
end

section
/-!
PROOF. The scan of a PUSH and the scan loop of 41_stream_reassembler R67 are the same: what the loop
allows from a buffer is exactly what the scan answers. The steps of PUSH (R68 to R77) are then read
off the rules of the loop.
-/

namespace Sys2Proof.Machine

variable {drain : Bool} {fuel : Nat} {buf out f : Bytes} {fs : List Bytes}

/-! ### Buffers that wait, and buffers that hold their candidate -/

/-- A buffer too short for its length byte has not reached its required length either (R70, R72). -/
theorem waiting_iff_lt_requiredLength (buf : Bytes) :
    waiting buf = true ↔
      buf = [] ∨ (buf.head? = some Config.stx ∧ buf.length < requiredLength buf) := by
  have h7 := (requiredLength_bounds buf).1
  have hlen : buf.length < Config.hdrLen ∨ buf.length < requiredLength buf ↔
      buf.length < requiredLength buf := by
    simp only [Config.hdrLen]; omega
  rw [waiting_iff, hlen]

/-- The required length of a buffer is that of its first bytes where they hold the length byte. -/
theorem requiredLength_take {n : Nat} (h : 3 < n) (buf : Bytes) :
    requiredLength (buf.take n) = requiredLength buf := by
  rw [requiredLength, declaredLength, byteAt_take _ _ _ h, requiredLength, declaredLength]

/-- The candidate of a complete buffer has the length it declares (R73). -/
theorem length_candidate (h : complete buf) :
    (buf.take (requiredLength buf)).length = requiredLength (buf.take (requiredLength buf)) := by
  have h7 := (requiredLength_bounds buf).1
  obtain ⟨-, -, hneed⟩ := h
  rw [requiredLength_take (by omega), List.length_take, Nat.min_eq_left hneed]

/-- The candidate of a complete buffer starts with STX (R73). -/
theorem head?_candidate (h : complete buf) :
    (buf.take (requiredLength buf)).head? = some Config.stx := by
  have h7 := (requiredLength_bounds buf).1
  obtain ⟨hhead, -, -⟩ := h
  rw [List.head?_take, if_neg (by omega), hhead]

/-- After the resync step a buffer that holds the bytes it declares is complete. -/
theorem complete_resync (hhdr : Config.hdrLen ≤ (resync buf).length)
    (hneed : requiredLength (resync buf) ≤ (resync buf).length) : complete (resync buf) := by
  refine ⟨(resync_head buf).resolve_left fun hnil => ?_, hhdr, hneed⟩
  rw [hnil] at hhdr
  exact absurd hhdr (by decide)

/-- What the resync step removes holds no STX (R69). -/
theorem exists_noise_append_resync (buf : Bytes) :
    ∃ noise, buf = noise ++ resync buf ∧ Config.stx ∉ noise := by
  induction buf with
  | nil => exact ⟨[], rfl, List.not_mem_nil⟩
  | cons b bs ih =>
    by_cases hb : b = Config.stx
    · subst hb
      exact ⟨[], (resync_cons_stx bs).symm, List.not_mem_nil⟩
    · obtain ⟨noise, heq, hnoise⟩ := ih
      rw [resync_cons_noise _ hb]
      refine ⟨b :: noise, congrArg (b :: ·) heq, ?_⟩
      simp [hnoise, Ne.symm hb]

/-! ### The loop allows what the scan answers -/

/-- The loop drops noise in front of a buffer (R69). -/
theorem ScanLoop.append_noise {noise : Bytes} (hnoise : Config.stx ∉ noise)
    (h : ScanLoop drain buf fs out) : ScanLoop drain (noise ++ buf) fs out := by
  induction noise with
  | nil => exact h
  | cons b bs ih =>
    obtain ⟨hb, hbs⟩ := List.ne_and_not_mem_of_not_mem_cons hnoise
    exact .drop _ _ _ _ hb.symm (ih hbs)

/-- Step B done at once. -/
theorem ScanLoop.of_resync (h : ScanLoop drain (resync buf) fs out) :
    ScanLoop drain buf fs out := by
  obtain ⟨noise, heq, hnoise⟩ := exists_noise_append_resync buf
  rw [heq]
  exact h.append_noise hnoise

/-- The three exits that wait. -/
theorem ScanLoop.of_waiting (h : waiting buf = true) : ScanLoop drain buf [] buf := by
  rcases (waiting_iff_lt_requiredLength buf).mp h with rfl | ⟨hhead, hneed⟩
  · exact .empty
  · rcases Nat.lt_or_ge buf.length 4 with hlt | hge
    · exact .headerWait _ hhead hlt
    · exact .lengthWait _ hhead hge hneed

/-- With more passes than bytes the scan is a run of the loop that ends at one of its exits: each
pass that goes on has removed at least one byte (R76). -/
theorem scanLoop_scanPasses (hfuel : buf.length < fuel) :
    ScanLoop drain buf (scanPasses Config.hdrLen drain fuel buf).1
      (scanPasses Config.hdrLen drain fuel buf).2 := by
  induction fuel generalizing buf with
  | zero => omega
  | succ fuel ih =>
    have hle := resync_length_le buf
    have h7 := (requiredLength_bounds (resync buf)).1
    apply ScanLoop.of_resync
    rcases scanPasses_cases Config.hdrLen drain fuel buf with
      ⟨hwait, heq⟩ | ⟨hhdr, hneed, hv, heq⟩ | ⟨hhdr, hneed, hv, heq⟩ <;> rw [heq]
    case inl => exact .of_waiting (waiting_resync hwait)
    case inr.inl =>
      cases drain with
      | false => exact .acceptExit _ (complete_resync hhdr hneed) hv rfl
      | true =>
        refine .acceptAgain _ _ _ (complete_resync hhdr hneed) hv rfl (ih ?_)
        rw [List.length_drop]; omega
    case inr.inr =>
      refine .reject _ _ _ (complete_resync hhdr hneed) hv (ih ?_)
      rw [List.length_drop]; omega

/-! ### The scan answers what the loop allows -/

/-- A pass reads the buffer only after the resync step. -/
theorem scanPasses_congr_resync {hdr : Nat} {buf' : Bytes} (h : resync buf = resync buf') :
    scanPasses hdr drain (fuel + 1) buf = scanPasses hdr drain (fuel + 1) buf' := by
  rw [scanPasses, scanPasses, h]

theorem scanPasses_of_waiting (h : waiting buf = true) :
    scanPasses Config.hdrLen drain (fuel + 1) buf = ([], buf) := by
  rcases (waiting_iff buf).mp h with rfl | ⟨hhead, hlen⟩
  · exact scanPasses_wait (.inl (by decide))
  · rw [← resync_of_head hhead] at hlen
    rw [scanPasses_wait hlen, resync_of_head hhead]

theorem scanPasses_of_accepted (hc : complete buf)
    (hv : verifyFrame (buf.take (requiredLength buf)) = true) :
    scanPasses Config.hdrLen drain (fuel + 1) buf =
      if drain then
        (buf.take (requiredLength buf) ::
            (scanPasses Config.hdrLen drain fuel (buf.drop (requiredLength buf))).1,
          (scanPasses Config.hdrLen drain fuel (buf.drop (requiredLength buf))).2)
      else ([buf.take (requiredLength buf)], buf.drop (requiredLength buf)) := by
  obtain ⟨hhead, hhdr, hneed⟩ := hc
  have hpass :=
    scanPasses_accept (hdr := Config.hdrLen) (drain := drain) (fuel := fuel) (buf := buf)
  rw [resync_of_head hhead] at hpass
  exact hpass hhdr hneed hv

theorem scanPasses_of_rejected (hc : complete buf)
    (hv : verifyFrame (buf.take (requiredLength buf)) = false) :
    scanPasses Config.hdrLen drain (fuel + 1) buf =
      scanPasses Config.hdrLen drain fuel (buf.drop 1) := by
  obtain ⟨hhead, hhdr, hneed⟩ := hc
  have hpass :=
    scanPasses_reject (hdr := Config.hdrLen) (drain := drain) (fuel := fuel) (buf := buf)
  rw [resync_of_head hhead] at hpass
  exact hpass hhdr hneed hv

/-- A run of the loop fixes what the scan answers, for any number of passes above the number of
bytes. -/
theorem ScanLoop.scanPasses_eq (h : ScanLoop drain buf fs out) (hfuel : buf.length ≤ fuel) :
    scanPasses Config.hdrLen drain (fuel + 1) buf = (fs, out) := by
  induction h generalizing fuel with
  | drop b buf fs out hb _ ih =>
    rw [scanPasses_congr_resync (resync_cons_noise buf hb)]
    exact ih (Nat.le_of_succ_le hfuel)
  | empty => exact scanPasses_of_waiting rfl
  | headerWait buf hhead hlen =>
    exact scanPasses_of_waiting ((waiting_iff buf).mpr (.inr ⟨hhead, .inl hlen⟩))
  | lengthWait buf hhead _ hneed =>
    exact scanPasses_of_waiting ((waiting_iff buf).mpr (.inr ⟨hhead, .inr hneed⟩))
  | acceptExit buf hc hv hdrain =>
    rw [scanPasses_of_accepted hc hv, hdrain, if_neg Bool.false_ne_true]
  | acceptAgain buf fs out hc hv hdrain _ ih =>
    have h7 := (requiredLength_bounds buf).1
    have ⟨_, _, hneed⟩ := hc
    obtain ⟨fuel, rfl⟩ := Nat.exists_eq_add_one_of_ne_zero (show fuel ≠ 0 by omega)
    rw [scanPasses_of_accepted hc hv, if_pos hdrain, ih (by rw [List.length_drop]; omega)]
  | reject buf fs out hc hv _ ih =>
    have h7 := (requiredLength_bounds buf).1
    have ⟨_, _, hneed⟩ := hc
    obtain ⟨fuel, rfl⟩ := Nat.exists_eq_add_one_of_ne_zero (show fuel ≠ 0 by omega)
    rw [scanPasses_of_rejected hc hv, ih (by rw [List.length_drop]; omega)]

/-- The scan of a PUSH and the loop say the same (R67). -/
theorem scan_eq_iff_scanLoop : scan drain buf = (fs, out) ↔ ScanLoop drain buf fs out := by
  refine ⟨fun h => ?_, fun h => h.scanPasses_eq le_rfl⟩
  have hloop : ScanLoop drain buf (scan drain buf).1 (scan drain buf).2 :=
    scanLoop_scanPasses (Nat.lt_succ_self _)
  rwa [h] at hloop

theorem scanLoop_scan (drain : Bool) (buf : Bytes) :
    ScanLoop drain buf (scan drain buf).1 (scan drain buf).2 :=
  scan_eq_iff_scanLoop.mp rfl

/-- The scan of a PUSH is a run of the loop over the buffer with the byte appended (R68). -/
theorem scanLoop_pushScan (b : Byte) (s : State) :
    ScanLoop s.config.drainOnEmit (s.buf ++ [b]) (pushScan b s).1 (pushScan b s).2 :=
  scanLoop_scan _ _

theorem pushScan_of_scanLoop {b : Byte} {s : State}
    (h : ScanLoop s.config.drainOnEmit (s.buf ++ [b]) fs out) : pushScan b s = (fs, out) :=
  scan_eq_iff_scanLoop.mpr h

/-- A run of the loop over the buffer with the byte appended is all that PUSH does. -/
theorem exec_push_of_scanLoop {b : Byte} {s : State}
    (h : ScanLoop s.config.drainOnEmit (s.buf ++ [b]) fs out) :
    exec (.push b) s = .next { s with
      buf := out, results := s.results ++ [resultFrames (fs.map emittedFrame)] } := by
  rw [exec_push, afterPush, pushScan_of_scanLoop h, State.setBuf_eq, State.returnResult_eq]

theorem exec_push_of_waiting {b : Byte} {s : State} (h : waiting (s.buf ++ [b]) = true) :
    exec (.push b) s =
      .next { s with buf := s.buf ++ [b], results := s.results ++ [resultFrames []] } :=
  exec_push_of_scanLoop (.of_waiting h)

/-! ### The header threshold (R70) -/

/-- Between 4 and 7 the header threshold does not matter: a buffer shorter than 7 bytes waits for
its required length in any case (R70). -/
theorem scanPasses_eq_of_hdr_le {hdr : Nat} (h4 : 4 ≤ hdr) (h7 : hdr ≤ 7) (drain : Bool)
    (passes : Nat) (buf : Bytes) :
    scanPasses hdr drain passes buf = scanPasses 4 drain passes buf := by
  induction passes generalizing buf with
  | zero => rfl
  | succ passes ih =>
    have hmin := (requiredLength_bounds (resync buf)).1
    rcases scanPasses_cases 4 drain passes buf with
      ⟨hwait, heq⟩ | ⟨-, hneed, hv, heq⟩ | ⟨-, hneed, hv, heq⟩ <;> rw [heq]
    case inl => exact scanPasses_wait (by omega)
    case inr.inl => rw [scanPasses_accept (by omega) hneed hv, ih]
    case inr.inr => rw [scanPasses_reject (by omega) hneed hv, ih]

/-! ### The obligations -/

/-- Settles O27: the scan of the PUSH is a run of the loop, and the record of R77 is written out. -/
theorem pushRunsScanLoop : Obligations.PushRunsScanLoop :=
  fun b s => ⟨_, _, scanLoop_pushScan b s, exec_push_of_scanLoop (scanLoop_pushScan b s)⟩

/-- Settles O28: any run of the loop is what the scan answers. -/
theorem scanLoopIsDeterministic : Obligations.ScanLoopIsDeterministic := by
  intro drain buf fs out gs out' h h'
  exact Prod.mk.inj ((scan_eq_iff_scanLoop.mpr h).symm.trans (scan_eq_iff_scanLoop.mpr h'))

/-- Settles O29: what the resync step removes, and how it ends. -/
theorem resyncDropsUpToStx : Obligations.ResyncDropsUpToStx := by
  intro buf
  obtain ⟨noise, heq, hnoise⟩ := exists_noise_append_resync buf
  exact ⟨noise, heq, hnoise, resync_head buf⟩

/-- Settles O30: a short resynchronized buffer waits, and so does one below any threshold. -/
theorem headerThresholdIsImmaterial : Obligations.HeaderThresholdIsImmaterial := by
  refine ⟨fun drain buf hhead hlen => ?_, fun hdr drain passes buf h4 h7 =>
    scanPasses_eq_of_hdr_le h4 h7 drain passes buf⟩
  exact scan_eq_iff_scanLoop.mpr
    (.of_waiting ((waiting_iff buf).mpr (hhead.imp_right fun h => ⟨h, .inl hlen⟩)))

/-- Settles O31: a byte is at most 255. -/
theorem requiredLengthDoesNotWrap : Obligations.RequiredLengthDoesNotWrap :=
  fun s => ⟨rfl, requiredLength_bounds s⟩

/-- Settles O32: the buffer with the byte appended waits. -/
theorem incompleteCandidateWaits : Obligations.IncompleteCandidateWaits :=
  fun _ _ hhead hlen => exec_push_of_waiting ((waiting_iff _).mpr (.inr ⟨hhead, hlen⟩))

/-- Settles O33: VERIFY's two length tests hold of the candidate of a complete buffer. -/
theorem candidateFailsOnlyByContent : Obligations.CandidateFailsOnlyByContent := by
  intro buf hc
  have hlen := length_candidate hc
  have h7 := (requiredLength_bounds (buf.take (requiredLength buf))).1
  refine ⟨_, rfl, head?_candidate hc, hlen, ?_⟩
  rw [verifyFrame_iff]
  exact ⟨fun ⟨_, _, hcontent⟩ => hcontent, fun hcontent => ⟨hlen ▸ h7, hlen, hcontent⟩⟩

/-- Settles O34: the loop's rule for a rejected candidate, before the scan of the rest. -/
theorem rejectedCandidateDropsOneByte : Obligations.RejectedCandidateDropsOneByte :=
  fun _ _ hc hv => exec_push_of_scanLoop (.reject _ _ _ hc hv (scanLoop_scan _ _))

/-- Settles O35: the loop's two rules for an accepted candidate. -/
theorem acceptedCandidateIsEmitted : Obligations.AcceptedCandidateIsEmitted := by
  rintro b s cand rest hc rfl rfl hv
  refine ⟨fun hdrain => exec_push_of_scanLoop (fs := _ :: _) ?_,
    fun hdrain => exec_push_of_scanLoop (fs := [_]) ?_⟩
  · rw [hdrain]
    exact .acceptAgain _ _ _ hc hv rfl (scanLoop_scan _ _)
  · exact .acceptExit _ hc hv hdrain

/-- Settles O36: with any such number of passes the scan answers what the loop allows. -/
theorem scanEndsWithinLengthPlusOne : Obligations.ScanEndsWithinLengthPlusOne := by
  intro drain buf passes hpasses
  obtain ⟨fuel, rfl⟩ := Nat.exists_eq_add_one_of_ne_zero (Nat.ne_zero_of_lt hpasses)
  exact (scanLoop_scan drain buf).scanPasses_eq (Nat.le_of_succ_le_succ hpasses)

/-- Settles O37: a lone STX waits for its header, and any other byte is noise. -/
theorem firstByteIsDroppedUnlessStx : Obligations.FirstByteIsDroppedUnlessStx := by
  intro b s hs
  refine exec_push_of_scanLoop (fs := []) ?_
  rw [hs]
  split
  case isTrue hb => subst hb; exact .of_waiting rfl
  case isFalse hb => exact .drop _ _ _ _ hb .empty

end Sys2Proof.Machine
end

section
/-!
PROOF. The bytes of a stream (41_stream_reassembler R79 to R82): what a scan emits, where the bytes
pushed end up, and what is emitted while a frame comes in.
-/

namespace Sys2Proof.Machine

variable {drain : Bool} {stream held buf out x y f : Bytes} {fs gs : List Bytes}

/-! ### What a scan emits (R79) -/

/-- Every candidate the loop emits starts with STX and is accepted. -/
theorem ScanLoop.emitted (h : ScanLoop drain buf fs out) :
    ∀ f ∈ fs, f.head? = some Config.stx ∧ verifyFrame f = true := by
  induction h with
  | drop | reject => assumption
  | empty | headerWait | lengthWait => simp
  | acceptExit buf hc hv => simpa using ⟨head?_candidate hc, hv⟩
  | acceptAgain buf fs out hc hv _ _ ih =>
    exact List.forall_mem_cons.mpr ⟨⟨head?_candidate hc, hv⟩, ih⟩

/-- Settles O43: each record is that of a candidate the loop emitted, whose fields determine it. -/
theorem emittedFramesAreWellFormed : Obligations.EmittedFramesAreWellFormed := by
  refine fun b s => ⟨_, _, exec_push b s, afterPush_results b s, fun r hr => ?_⟩
  obtain ⟨f, hf, rfl⟩ := List.mem_map.mp hr
  obtain ⟨hhead, hv⟩ := (scanLoop_pushScan b s).emitted f hf
  obtain ⟨h7, h262⟩ := verifyFrame_length hv
  have hbyte : ∀ {i}, i < 7 → f[i]? = some (byteAt f i) := fun hi =>
    (byteAt_eq_iff (Nat.lt_of_lt_of_le hi h7)).mp rfl
  exact ⟨List.head?_eq_getElem? ▸ hhead, hv, h7, h262, hbyte (by decide), hbyte (by decide),
    ⟨_, hbyte (by decide), rfl⟩, fieldsDetermineFrame f hv hhead⟩

/-! ### Byte conservation (R80) -/

/-- Dropped bytes in front. -/
theorem Conserves.prepend (front : Bytes) (h : Conserves stream fs held) :
    Conserves (front ++ stream) fs held := by
  cases fs with
  | nil =>
    obtain ⟨dropped, rfl⟩ := h
    exact ⟨front ++ dropped, (List.append_assoc ..).symm⟩
  | cons f fs =>
    obtain ⟨dropped, later, rfl, hlater⟩ := h
    exact ⟨front ++ dropped, later, by simp, hlater⟩

theorem Conserves.refl (held : Bytes) : Conserves held [] held := ⟨[], rfl⟩

/-- Two stretches of a stream one after the other: the second starts with the bytes that the first
held. -/
theorem Conserves.append {more : Bytes} (h : Conserves stream fs buf)
    (hmore : Conserves (buf ++ more) gs held) : Conserves (stream ++ more) (fs ++ gs) held := by
  induction fs generalizing stream with
  | nil =>
    obtain ⟨dropped, rfl⟩ := h
    rw [List.append_assoc]
    exact hmore.prepend dropped
  | cons f fs ih =>
    obtain ⟨dropped, later, rfl, hlater⟩ := h
    exact ⟨dropped, later ++ more, by simp, ih hlater⟩

/-- What is held is the end of the stream. -/
theorem Conserves.held_suffix (h : Conserves stream fs held) : held <:+ stream := by
  induction fs generalizing stream with
  | nil =>
    obtain ⟨dropped, rfl⟩ := h
    exact List.suffix_append ..
  | cons f fs ih =>
    obtain ⟨dropped, later, rfl, hlater⟩ := h
    exact (ih hlater).trans (List.suffix_append ..)

/-- Bytes dropped from the head. -/
theorem Conserves.of_drop {n : Nat} (h : Conserves (buf.drop n) fs held) :
    Conserves buf fs held := by
  have happend := h.prepend (buf.take n)
  rwa [List.take_append_drop] at happend

/-- A frame taken from the head. -/
theorem Conserves.take_of_drop {n : Nat} (h : Conserves (buf.drop n) fs held) :
    Conserves buf (buf.take n :: fs) held :=
  ⟨[], buf.drop n, (List.take_append_drop n buf).symm, h⟩

/-- The loop takes bytes only from the head of the buffer, one to drop or a whole candidate. -/
theorem ScanLoop.conserves (h : ScanLoop drain buf fs out) : Conserves buf fs out := by
  induction h with
  | drop b _ _ _ _ _ ih => exact ih.prepend [b]
  | empty | headerWait | lengthWait => exact .refl _
  | acceptExit => exact (Conserves.refl _).take_of_drop
  | acceptAgain _ _ _ _ _ _ _ ih => exact ih.take_of_drop
  | reject _ _ _ _ _ _ ih => exact ih.of_drop

theorem pushedBytes_cons (i : Instr) (prog : List Instr) :
    pushedBytes (i :: prog) = pushedBytes [i] ++ pushedBytes prog := by
  cases i <;> rfl

@[simp] theorem raws_resultFrames_map_emittedFrame (fs : List Bytes) :
    (resultFrames (fs.map emittedFrame)).raws = fs := by
  simp [Result.raws, Function.comp_def, emittedFrame]

/-- One operation conserves the bytes held and the byte it pushes, if any. -/
theorem exec_conserves (i : Instr) (s : State) :
    ∃ t, exec i s = .next t ∧ t.results = s.results ++ [resultOf s i] ∧
      Conserves (s.buf ++ pushedBytes [i]) (resultOf s i).raws t.buf := by
  cases i with
  | clear => exact ⟨_, exec_clear s, rfl, s.buf, rfl⟩
  | push b =>
    refine ⟨_, exec_push b s, rfl, ?_⟩
    rw [resultOf, raws_resultFrames_map_emittedFrame]
    exact (scanLoop_pushScan b s).conserves
  | encode a c p =>
    obtain ⟨-, -, -, hframes⟩ := resultOf_encode_fields a c p s
    refine ⟨_, exec_encode a c p s, rfl, ?_⟩
    rw [Result.raws, returnedFrames, hframes]
    exact ⟨[], List.append_nil _⟩
  | verify x => exact ⟨_, exec_verify x s, rfl, [], List.append_nil _⟩

/-- A program conserves the bytes held before it and the bytes it pushes. -/
theorem execAll_conserves (prog : List Instr) (s : State) :
    ∃ t new, execAll prog s = .next t ∧ t.results = s.results ++ new ∧
      Conserves (s.buf ++ pushedBytes prog) (emittedRaws new) t.buf := by
  induction prog generalizing s with
  | nil => exact ⟨s, [], rfl, (List.append_nil _).symm, [], List.append_nil _⟩
  | cons i prog ih =>
    obtain ⟨u, hexec, hresult, hfirst⟩ := exec_conserves i s
    obtain ⟨t, new, hrest, hnew, hlater⟩ := ih u
    refine ⟨t, resultOf s i :: new, (execAll_cons_of_exec hexec).trans hrest, ?_, ?_⟩
    · rw [hnew, hresult, List.append_assoc, List.singleton_append]
    · rw [pushedBytes_cons, ← List.append_assoc]
      exact hfirst.append hlater

/-- A program is carried out in two stretches. -/
theorem execAll_append_of_next {before : List Instr} {s u : State}
    (h : execAll before s = .next u) (after : List Instr) :
    execAll (before ++ after) s = execAll after u := by
  induction before generalizing s with
  | nil => cases h; rfl
  | cons i before ih =>
    obtain ⟨v, hexec⟩ := exec_next i s
    rw [execAll_cons_of_exec hexec] at h
    rw [List.cons_append, execAll_cons_of_exec hexec, ih h]

/-- A program that ends with CLEAR, or has no operation at all, leaves an empty buffer empty. -/
theorem execAll_buf_nil {before : List Instr} {s : State} (hs : s.buf = [])
    (h : before = [] ∨ before.getLast? = some Instr.clear) :
    ∃ u, execAll before s = .next u ∧ u.buf = [] := by
  rcases h with rfl | hlast
  · exact ⟨s, rfl, hs⟩
  · obtain ⟨init, rfl⟩ := List.getLast?_eq_some_iff.mp hlast
    obtain ⟨v, -, hinit, -⟩ := execAll_conserves init s
    exact ⟨_, (execAll_append_of_next hinit _).trans (execAll_cons_of_exec (exec_clear v)), rfl⟩

/-- Settles O44: a program conserves the bytes, and so does what follows a CLEAR in it. -/
theorem pushedBytesAreConserved : Obligations.PushedBytesAreConserved := by
  intro prog s hs
  obtain ⟨t, new, hexec, hnew, hconserves⟩ := execAll_conserves prog s
  rw [hs] at hconserves
  refine ⟨t, new, hexec, hnew, hconserves, ?_⟩
  rintro before after rfl hcut
  obtain ⟨u, hbefore, hu⟩ := execAll_buf_nil hs hcut
  obtain ⟨t', new', hafter, -, hlater⟩ := execAll_conserves after u
  obtain rfl : t = t' := by
    rw [execAll_append_of_next hbefore, hafter] at hexec
    exact (Host.Outcome.next.inj hexec).symm
  rw [hu] at hlater
  exact hlater.held_suffix

/-! ### PUSHes that emit nothing -/

/-- Some PUSHes emit nothing and leave the buffer `held`. -/
structure SilentlyLeaves (bs : Bytes) (s : State) (held : Bytes) : Prop where
  /-- The buffer afterwards. -/
  buf_eq : (afterPushs bs s).buf = held
  /-- The records of these PUSHes. -/
  frames_eq : pushsFrames bs s = []

/-- The raw frames of the results are those of their records. -/
theorem emittedRaws_eq_map_raw (rs : List Result) :
    emittedRaws rs = (emittedFrames rs).map EmittedFrame.raw :=
  (List.map_flatMap ..).symm

/-- What such PUSHes return carries no frame. -/
theorem SilentlyLeaves.emittedRaws {bs : Bytes} {s : State} (h : SilentlyLeaves bs s held) :
    emittedRaws (pushsResults bs s) = [] := by
  rw [emittedRaws_eq_map_raw, emittedFrames_pushsResults, h.frames_eq, List.map_nil]

theorem silentlyLeaves_nil (s : State) : SilentlyLeaves [] s s.buf := ⟨rfl, rfl⟩

theorem SilentlyLeaves.cons {b : Byte} {bs : Bytes} {s : State}
    (hb : pushScan b s = ([], buf)) (hbs : SilentlyLeaves bs (afterPush b s) held) :
    SilentlyLeaves (b :: bs) s held := by
  refine ⟨hbs.buf_eq, ?_⟩
  rw [pushsFrames_cons, hb, hbs.frames_eq]
  rfl

theorem SilentlyLeaves.append {bs cs : Bytes} {s : State}
    (hbs : SilentlyLeaves bs s buf) (hcs : SilentlyLeaves cs (afterPushs bs s) held) :
    SilentlyLeaves (bs ++ cs) s held := by
  refine ⟨by rw [afterPushs_append, hcs.buf_eq], ?_⟩
  rw [pushsFrames_append, hbs.frames_eq, hcs.frames_eq, List.append_nil]

/-- Noise pushed at an empty buffer is dropped byte by byte. -/
theorem silentlyLeaves_noise {noise : Bytes} {s : State} (hs : s.buf = [])
    (hnoise : Config.stx ∉ noise) : SilentlyLeaves noise s [] := by
  induction noise generalizing s with
  | nil => exact hs ▸ silentlyLeaves_nil s
  | cons b bs ih =>
    obtain ⟨hb, hbs⟩ := List.ne_and_not_mem_of_not_mem_cons hnoise
    have hscan : pushScan b s = ([], []) := by
      refine pushScan_of_scanLoop ?_
      rw [hs]
      exact .drop _ _ _ _ hb.symm .empty
    exact .cons hscan (ih (by rw [afterPush_buf, hscan]) hbs)

/-- Settles O50: CLEAR leaves an empty buffer, at which noise is dropped. -/
theorem clearEmptiesBuffer : Obligations.ClearEmptiesBuffer := by
  refine fun s => ⟨_, exec_clear s, rfl, fun bs hbs => ?_⟩
  have hsilent := silentlyLeaves_noise (s := s.emptyBuf.returnResult resultOk) rfl hbs
  exact ⟨hsilent.buf_eq, _, afterPushs_results .., hsilent.emittedRaws⟩

/-- The start of a candidate waits as long as it has fewer bytes than the candidate declares. -/
theorem waiting_of_prefix (hxy : x <+: y) (hhead : y.head? = some Config.stx)
    (hlen : x.length < requiredLength y) : waiting x = true := by
  obtain ⟨later, rfl⟩ := hxy
  cases x with
  | nil => rfl
  | cons b bs =>
    refine (waiting_iff _).mpr (.inr ⟨hhead, ?_⟩)
    rcases Nat.lt_or_ge (b :: bs).length Config.hdrLen with hlt | hge
    · exact .inl hlt
    · refine .inr ?_
      rwa [requiredLength, declaredLength, byteAt_append_left _ _ _ hge] at hlen

/-- While the bytes held and pushed are the start of a longer candidate `y`, they stay where they
are. -/
theorem silentlyLeaves_prefix {bs : Bytes} {s : State} (hprefix : s.buf ++ bs <+: y)
    (hhead : y.head? = some Config.stx) (hlen : (s.buf ++ bs).length < requiredLength y) :
    SilentlyLeaves bs s (s.buf ++ bs) := by
  induction bs generalizing s with
  | nil => rw [List.append_nil]; exact silentlyLeaves_nil s
  | cons b bs ih =>
    rw [List.append_cons] at hprefix hlen ⊢
    have hfirst : s.buf ++ [b] <+: s.buf ++ [b] ++ bs := List.prefix_append ..
    have hscan : pushScan b s = ([], s.buf ++ [b]) := pushScan_of_scanLoop
      (.of_waiting (waiting_of_prefix (hfirst.trans hprefix) hhead
        (hfirst.length_le.trans_lt hlen)))
    have hbuf : (afterPush b s).buf = s.buf ++ [b] := by rw [afterPush_buf, hscan]
    rw [← hbuf] at hprefix hlen ⊢
    exact .cons hscan (ih hprefix hlen)

/-- From an empty buffer, noise and then the start of a candidate: the start is held. -/
theorem silentlyLeaves_noise_append_prefix {noise : Bytes} {s : State} (hs : s.buf = [])
    (hnoise : Config.stx ∉ noise) (hprefix : x <+: y) (hhead : y.head? = some Config.stx)
    (hlen : x.length < requiredLength y) : SilentlyLeaves (noise ++ x) s x := by
  have hdropped := silentlyLeaves_noise hs hnoise
  have hheld := silentlyLeaves_prefix (bs := x) (s := afterPushs noise s) (y := y)
  rw [hdropped.buf_eq, List.nil_append] at hheld
  exact hdropped.append (hheld hprefix hhead hlen)

/-! ### Recovery from noise (R81) -/

/-- A buffer that is one well-formed frame is emitted whole, whether the block drains or not. -/
theorem ScanLoop.of_frame (hhead : f.head? = some Config.stx) (hv : verifyFrame f = true) :
    ScanLoop drain f [f] [] := by
  obtain ⟨h7, hneed, -⟩ := (verifyFrame_iff f).mp hv
  have hc : complete f := ⟨hhead, Nat.le_trans (by decide) h7, hneed.ge⟩
  have htake : f.take (requiredLength f) = f := by rw [← hneed, List.take_length]
  have hdrop : f.drop (requiredLength f) = [] := by rw [← hneed, List.drop_length]
  rw [← htake] at hv
  cases drain with
  | false =>
    have hloop : ScanLoop false f _ _ := .acceptExit f hc hv rfl
    rwa [htake, hdrop] at hloop
  | true =>
    have hrest : ScanLoop true (f.drop (requiredLength f)) [] [] := by
      rw [hdrop]; exact .empty
    have hloop : ScanLoop true f _ [] := .acceptAgain f [] [] hc hv rfl hrest
    rwa [htake] at hloop

theorem head?_encodeFrame {a c : Byte} {p : Bytes} (h : encodeFrame a c p = some f) :
    f.head? = some Config.stx := by
  rw [encodeFrame_eq_frameLayout (payload_length_le_of_encodeFrame h)] at h
  rw [← Option.some.inj h]
  rfl

/-- Settles O45: up to the frame's last byte the block holds the start of the frame, and with that
byte the whole of it. -/
theorem frameAfterNoiseIsRecovered : Obligations.FrameAfterNoiseIsRecovered := by
  intro noise f p a c s hs hnoise hf
  have hhead := head?_encodeFrame hf
  obtain ⟨hv, rfl, rfl, rfl⟩ := verifyFrame_encodeFrame hf
  obtain ⟨h7, hneed, -⟩ := (verifyFrame_iff f).mp hv
  have hpart : ∀ k, Config.stx ∉ noise.take k := fun k h => hnoise (List.mem_of_mem_take h)
  refine ⟨fun k _ => (silentlyLeaves_noise hs (hpart k)).buf_eq,
    fun k hk => ⟨_, afterPushs_results .., ?_⟩, ?_⟩
  · rw [List.take_append]
    refine (silentlyLeaves_noise_append_prefix hs (hpart k) (List.take_prefix _ f) hhead
      ?_).emittedRaws
    rw [← hneed, List.length_take]; omega
  · obtain ⟨start, z, rfl⟩ :=
      (List.eq_nil_or_concat' f).resolve_left (List.ne_nil_of_length_pos (by omega))
    have hsilent := silentlyLeaves_noise_append_prefix hs hnoise (List.prefix_append start [z])
      hhead (by rw [← hneed, List.length_append]; exact Nat.lt_succ_self _)
    have hscan : pushScan z (afterPushs (noise ++ start) s) = ([start ++ [z]], []) :=
      pushScan_of_scanLoop (by rw [hsilent.buf_eq]; exact .of_frame hhead hv)
    rw [← List.append_assoc, afterPushs_append, afterPushs_cons, afterPushs_nil, afterPush_results,
      afterPush_buf, hscan, afterPushs_results, List.append_assoc]
    exact ⟨_, _, rfl, hsilent.emittedRaws, rfl, rfl⟩

end Sys2Proof.Machine
end

section
/-!
PROOF. Outcomes and faults (60_exceptions R85 to R93): the one operation whose status is not OK, and
that its fault is seen in its own result only.
-/

namespace Sys2Proof.Machine

/-- No operation touches what the host has still to do. -/
theorem exec_keeps_host {i : Instr} {s t : State} (h : exec i s = .next t) : t.host = s.host := by
  obtain ⟨u, hexec, -, -, hhost⟩ := exec_returns_resultOf i s
  obtain rfl : u = t := Host.Outcome.next.inj (hexec.symm.trans h)
  exact hhost

/-- Settles O16: the faulting ENCODE changes the results only, and the next operation reads none of
them. -/
theorem overlongEncodeIsNotLatched : Obligations.OverlongEncodeIsNotLatched := by
  intro a c p s hlong
  refine ⟨s.returnResult resultTooLong, resultTooLong, (encodeReturnsFrame a c p s).2 hlong,
    State.returnResult_eq s _, rfl, rfl, fun i => ?_⟩
  obtain ⟨u, v, q, hu, hv, hur, hvr, hbuf, hconfig⟩ :=
    resultsAreNeverRead i s (s.results ++ [resultTooLong]) s.host
  exact ⟨u, v, q, hu, hv, hur, hvr, hbuf, hconfig,
    (exec_keeps_host hv).trans (exec_keeps_host hu).symm⟩

/-- The only fault: on ENCODE's two sides of the payload bound, and never of another operation. -/
theorem resultOf_status_eq_payloadTooLong_iff (s : State) (i : Instr) :
    (resultOf s i).status = .payloadTooLong ↔ ∃ a c p, i = .encode a c p ∧ 255 < p.length := by
  cases i with
  | encode a c p =>
    rcases Nat.lt_or_ge 255 p.length with hp | hp
    · simp [resultOf, encodeFrame_eq_none hp, resultTooLong, hp]
    · simp [resultOf, encodeFrame_eq_some hp, resultFrame, resultOk, hp]
  | clear | push b | verify x => simp [resultOf, resultOk, resultFrames, resultValid]

/-- Settles O10: of the two statuses, the one that is not PAYLOAD_TOO_LONG is OK. -/
theorem statusTellsOverlongEncode : Obligations.StatusTellsOverlongEncode := by
  intro i s
  obtain ⟨t, hexec, hresults, -⟩ := exec_returns_resultOf i s
  refine ⟨t, resultOf s i, hexec, hresults, ?_⟩
  rw [← resultOf_status_eq_payloadTooLong_iff s i]
  cases (resultOf s i).status with
  | ok => exact ⟨nofun, fun _ => ⟨rfl, rfl⟩⟩
  | payloadTooLong => exact ⟨fun _ => ⟨rfl, rfl⟩, fun h => absurd rfl h⟩

end Sys2Proof.Machine
end

section
/-!
PROOF. Reset and the hazards (70_reset_and_hazards R98, R103 to R106): a frame held back by a
false start, released when that start is rejected, or swallowed when it is accepted; a second frame
that waits; and the rest of a frame cut short.
-/

namespace Sys2Proof.Machine

variable {drain : Bool} {f later buf junk out : Bytes} {fs : List Bytes} {a c : Byte} {p : Bytes}

/-! ### A frame at the head of the buffer, and bytes behind it -/

/-- Bytes after the length byte do not change the length declared. -/
theorem requiredLength_append_left (h : 4 ≤ buf.length) (later : Bytes) :
    requiredLength (buf ++ later) = requiredLength buf := by
  rw [requiredLength, declaredLength, byteAt_append_left _ _ _ h, requiredLength, declaredLength]

/-- An encoded frame has the length it declares, whatever comes after it (R40). -/
theorem requiredLength_encodeFrame_append (hf : encodeFrame a c p = some f) (later : Bytes) :
    requiredLength (f ++ later) = f.length := by
  obtain ⟨h7, hneed, -⟩ := (verifyFrame_iff f).mp (verifyFrame_encodeFrame hf).1
  rw [requiredLength_append_left (by omega), hneed]

/-- A buffer that starts with a whole frame is complete. -/
theorem complete_encodeFrame_append (hf : encodeFrame a c p = some f) (later : Bytes) :
    complete (f ++ later) := by
  have h7 := (encodeFrame_length hf).1
  refine ⟨List.mem_head?_append_of_mem_head? (head?_encodeFrame hf), ?_, ?_⟩
  · rw [List.length_append, Config.hdrLen]; omega
  · rw [requiredLength_encodeFrame_append hf, List.length_append]; omega

/-- The candidate of such a buffer is the frame, and VERIFY accepts it (R62, R73). -/
theorem verifyFrame_candidate_encodeFrame_append (hf : encodeFrame a c p = some f)
    (later : Bytes) :
    verifyFrame ((f ++ later).take (requiredLength (f ++ later))) = true := by
  rw [requiredLength_encodeFrame_append hf, List.take_left]
  exact (verifyFrame_encodeFrame hf).1

/-- Without draining the frame at the head comes out alone (R75). -/
theorem ScanLoop.encodeFrame_append_exit (hdrain : drain = false)
    (hf : encodeFrame a c p = some f) (later : Bytes) :
    ScanLoop drain (f ++ later) [f] later := by
  have hloop : ScanLoop drain (f ++ later) _ _ := .acceptExit _ (complete_encodeFrame_append hf _)
    (verifyFrame_candidate_encodeFrame_append hf _) hdrain
  rwa [requiredLength_encodeFrame_append hf, List.take_left, List.drop_left] at hloop

/-- With draining it comes out before what the scan of the bytes behind it emits (R75). -/
theorem ScanLoop.encodeFrame_append_again (hdrain : drain = true)
    (hf : encodeFrame a c p = some f) (h : ScanLoop drain later fs out) :
    ScanLoop drain (f ++ later) (f :: fs) out := by
  have hloop : ScanLoop drain (f ++ later) _ out := .acceptAgain _ fs _
    (complete_encodeFrame_append hf _) (verifyFrame_candidate_encodeFrame_append hf _) hdrain
    (by rwa [requiredLength_encodeFrame_append hf, List.drop_left])
  rwa [requiredLength_encodeFrame_append hf, List.take_left] at hloop

/-- For both values of the parameter it comes out first. -/
theorem exists_scanLoop_encodeFrame_append (drain : Bool) (hf : encodeFrame a c p = some f)
    (later : Bytes) : ∃ more out, ScanLoop drain (f ++ later) (f :: more) out ∧
      (drain = false → more = [] ∧ out = later) := by
  cases drain with
  | false => exact ⟨[], later, .encodeFrame_append_exit rfl hf later, fun _ => ⟨rfl, rfl⟩⟩
  | true => exact ⟨_, _, .encodeFrame_append_again rfl hf (scanLoop_scan true later), nofun⟩

/-- The scan of a rejected candidate goes on behind the junk that follows its first byte
(R69, R74). -/
theorem ScanLoop.of_rejected_junk (hc : complete buf)
    (hv : verifyFrame (buf.take (requiredLength buf)) = false)
    (hrest : buf.drop 1 = junk ++ later) (hjunk : Config.stx ∉ junk)
    (h : ScanLoop drain later fs out) : ScanLoop drain buf fs out :=
  .reject _ _ _ hc hv (hrest ▸ h.append_noise hjunk)

/-! ### Operations that emit nothing -/

/-- Only PUSH returns records (R56). -/
theorem returnedFrames_resultOf {i : Instr} (h : ∀ d, i ≠ .push d) (s : State) :
    returnedFrames (resultOf s i) = [] := by
  have hnone : (resultOf s i).frames = none := by
    rw [← Option.not_isSome_iff_eq_none, resultOf_frames_isSome_iff]
    exact fun ⟨d, hd⟩ => h d hd
  rw [returnedFrames, hnone, Option.getD_none]

/-- A program without a PUSH emits nothing, whatever the buffer holds. -/
theorem execAll_emits_nothing {prog : List Instr} (h : ∀ d, Instr.push d ∉ prog) (s : State) :
    ∃ u new, execAll prog s = .next u ∧ u.results = s.results ++ new ∧
      emittedFrames new = [] := by
  induction prog generalizing s with
  | nil => exact ⟨s, [], rfl, (List.append_nil _).symm, rfl⟩
  | cons i prog ih =>
    have hi : ∀ d, i ≠ .push d := fun d hd => h d (hd ▸ List.mem_cons_self)
    obtain ⟨t, hexec, hresult, -⟩ := exec_returns_resultOf i s
    obtain ⟨u, new, hrest, hnew, hsilent⟩ := ih (fun d hd => h d (List.mem_cons_of_mem i hd)) t
    refine ⟨u, resultOf s i :: new, (execAll_cons_of_exec hexec).trans hrest, ?_, ?_⟩
    · rw [hnew, hresult, List.append_assoc, List.singleton_append]
    · rw [emittedFrames, List.flatMap_cons, returnedFrames_resultOf hi s]
      exact hsilent

/-! ### A frame, and noise behind it -/

theorem emittedRaws_append (rs rs' : List Result) :
    emittedRaws (rs ++ rs') = emittedRaws rs ++ emittedRaws rs' :=
  List.flatMap_append ..

/-- From an empty buffer a frame comes out with its last byte, and the noise behind it is dropped
(R69, R81). -/
theorem afterPushs_encodeFrame_append_noise {s : State} (hs : s.buf = [])
    (hf : encodeFrame a c p = some f) (hjunk : Config.stx ∉ junk) :
    (afterPushs (f ++ junk) s).buf = [] ∧
      ∃ new, (afterPushs (f ++ junk) s).results = s.results ++ new ∧ emittedRaws new = [f] := by
  obtain ⟨-, -, new, last, hresults, hnew, rfl, hempty⟩ :=
    frameAfterNoiseIsRecovered [] f p a c s hs List.not_mem_nil hf
  rw [List.nil_append] at hresults hempty
  have hdropped := silentlyLeaves_noise hempty hjunk
  rw [afterPushs_append, afterPushs_results, hresults, List.append_assoc]
  refine ⟨hdropped.buf_eq, _, rfl, ?_⟩
  rw [emittedRaws_append, emittedRaws_append, hnew, hdropped.emittedRaws]
  rfl

/-! ### The obligations -/

/-- Settles O46: what is held and pushed is the start of the candidate that the length byte held
already declares. -/
theorem falseStartStallsFrames : Obligations.FalseStartStallsFrames := by
  intro bs s hhead h4 hlen
  have hsilent : SilentlyLeaves bs s (s.buf ++ bs) := by
    refine silentlyLeaves_prefix (List.prefix_refl _) (List.mem_head?_append_of_mem_head? hhead) ?_
    rw [requiredLength_append_left h4, List.length_append]
    exact hlen
  exact ⟨hsilent.buf_eq, _, afterPushs_results .., hsilent.emittedRaws⟩

/-- Settles O47: the scan goes on behind the junk, at the frame. -/
theorem rejectedFalseStartReleasesFrame : Obligations.RejectedFalseStartReleasesFrame := by
  intro a c b p f junk later s hc hv hrest hjunk hf
  rw [List.append_assoc] at hrest
  obtain ⟨more, out, hloop, halone⟩ :=
    exists_scanLoop_encodeFrame_append s.config.drainOnEmit hf later
  refine ⟨_, more.map emittedFrame,
    exec_push_of_scanLoop (hloop.of_rejected_junk hc hv hrest hjunk), rfl, fun hdrain => ?_⟩
  obtain ⟨rfl, rfl⟩ := halone hdrain
  exact ⟨rfl, rfl⟩

/-- Settles O49: a draining scan goes on from `f` to `g`; one that does not drain exits behind `f`,
and then only a PUSH scans again. -/
theorem secondFrameWaitsWithoutDraining : Obligations.SecondFrameWaitsWithoutDraining := by
  intro a c a' c' b p p' f g junk s hf hg hbuf
  have hreach : ∀ {fs out}, ScanLoop s.config.drainOnEmit (f ++ g) fs out →
      ScanLoop s.config.drainOnEmit (s.buf ++ [b]) fs out := by
    intro fs out hloop
    rcases hbuf with ⟨hc, hv, hrest, hjunk⟩ | ⟨-, heq⟩
    · rw [List.append_assoc] at hrest
      exact hloop.of_rejected_junk hc hv hrest hjunk
    · rwa [heq]
  refine ⟨fun hdrain => exec_push_of_scanLoop (fs := [f, g]) (hreach ?_), fun hdrain =>
    ⟨_, exec_push_of_scanLoop (fs := [f]) (hreach (.encodeFrame_append_exit hdrain hf g)), rfl,
      fun d => exec_push_of_scanLoop (fs := [g]) (.encodeFrame_append_exit hdrain hg [d]),
      fun prog hprog => execAll_emits_nothing hprog _⟩⟩
  exact .encodeFrame_append_again hdrain hf
    (.of_frame (head?_encodeFrame hg) (verifyFrame_encodeFrame hg).1)

/-- Settles O51: both leave an empty buffer, at which noise is dropped and an STX is held. -/
theorem bytesAfterClearOrResetAreNoise : Obligations.BytesAfterClearOrResetAreNoise := by
  intro s t bs hcut hbs
  have ht : t.buf = [] := by
    rcases hcut with hclear | ⟨rest, hhost, hreset⟩
    · rw [exec_clear] at hclear; cases hclear; rfl
    · rw [step_reset hhost] at hreset; cases hreset; rfl
  have hheld : SilentlyLeaves (bs ++ [Config.stx]) t [Config.stx] :=
    silentlyLeaves_noise_append_prefix ht hbs (List.prefix_refl _) rfl (by decide)
  exact ⟨(silentlyLeaves_noise ht hbs).buf_eq, hheld.buf_eq, _, afterPushs_results ..,
    hheld.emittedRaws⟩

/-- Settles O3: a step at a reset asserts it, and CLEAR empties the buffer as well. -/
theorem resetEmptiesBuffer : Obligations.ResetEmptiesBuffer := by
  intro s rest hhost
  exact ⟨step_reset hhost, _, exec_clear _, rfl, rfl, rfl⟩

/-- Settles O48: the first seven bytes are themselves an encoded frame, and the fourteen after them
hold no STX. -/
theorem chanceAcceptanceSwallowsFrame : Obligations.ChanceAcceptanceSwallowsFrame := by
  intro s hs
  have hfalse : encodeFrame 0x05 0x02 [] = some [0x02, 0x05, 0x02, 0x00, 0x03, 0x0C, 0x0D] := by
    decide
  have hnoise : Config.stx ∉ ([0, 0, 0, 0, 0, 0, 0, 0, 0, 0, 0, 0x03, 0x21, 0x0D] : Bytes) := by
    decide
  exact ⟨_, by decide, rfl, afterPushs_encodeFrame_append_noise hs hfalse hnoise⟩

end Sys2Proof.Machine
end

section
/-!
PROOF. The step at which the host does nothing (70_reset_and_hazards R102, log entry 3).
-/

namespace Sys2Proof.Machine

/-- Settles O5: the step's law for an empty host list. -/
theorem idleHostChangesNothing : Obligations.IdleHostChangesNothing := by
  intro s hhost
  exact step_idle hhost

end Sys2Proof.Machine
end
